-- ==== Sys2Proof/Word.lean ====
section
/-! DEFINITION. The words of the block (spec/00_scope.md R8, R9), the three line modes (spec/10_state.md R32) and
the line trace (spec/00_scope.md R11). -/

namespace Sys2Proof

/-- A byte: 8 bits (spec/00_scope.md R8). -/
abbrev Byte := BitVec 8

/-- An operand, a register value, response data: 32 bits (spec/00_scope.md R8). -/
abbrev Word := BitVec 32

/-- A command word: 40 bits (spec/30_encoding.md R72). -/
abbrev CmdWord := BitVec 40

/-- The electrical mode of the line: exactly these three (spec/10_state.md R32, spec/30_encoding.md R71). -/
inductive LineMode where
  /-- released to be read: input with pull-up -/
  | rel
  /-- driven low: output -/
  | low
  /-- driven high: output -/
  | high
  deriving DecidableEq, Repr

/-- One event of the line trace (spec/00_scope.md R11). -/
inductive LineEvent where
  /-- the block sets the line mode (spec/40_bit_signaling.md R101) -/
  | drive (m : LineMode)
  /-- this many microseconds pass (R102) -/
  | wait (n : Nat)
  /-- the block reads this level (R103) -/
  | sample (b : Bool)
  deriving DecidableEq, Repr

/-- A line trace: the events in the order they happen. -/
abbrev Trace := List LineEvent

end Sys2Proof
end

