-- ==== Sys2Proof/Syntax.lean ====
section
/-! DEFINITION. The commands: one constructor per row of spec/opcode_table.json (spec/30_encoding.md R77). -/

namespace Sys2Proof

/-- A command of the block. A host program is a list of them; no command names another (spec/46 R244). -/
inductive Instr where
  /-- `BEGIN` (spec/42_session.md R140) -/
  | beginSession
  /-- `START_CONV` (R142) -/
  | startConv
  /-- `POLL_CONV` (R144) -/
  | pollConv
  /-- `READ_TEMP` (R146) -/
  | readTemp
  /-- `SET_RES r` (spec/43_config_alarm_power.md R160), `r` the whole operand, unsigned -/
  | setRes (r : Word)
  /-- `SET_ALARM v` (R163), `v` a binary32 pattern -/
  | setAlarm (v : Word)
  /-- `CHECK_ALARM` (R167) -/
  | checkAlarm
  /-- `PARA_OFF` (R170) -/
  | paraOff
  /-- `PARA_ON` (R171) -/
  | paraOn
  /-- `RDREG.STATUS` (spec/44_register_access.md R180) -/
  | rdregStatus
  /-- `RDREG.RES` (R181) -/
  | rdregRes
  /-- `RDREG.THR` (R181) -/
  | rdregThr
  /-- `RDREG.DEVID_LO` (R181) -/
  | rdregDevidLo
  /-- `RDREG.DEVID_HI` (R181) -/
  | rdregDevidHi
  /-- `WRREG.RES x` (R183), `x` the whole operand, of which bits 31:8 must be zero -/
  | wrregRes (x : Word)
  /-- `WRREG.THR x` (R184) -/
  | wrregThr (x : Word)
  /-- `WRREG.DEVID_LO x` (R185) -/
  | wrregDevidLo (x : Word)
  /-- `WRREG.DEVID_HI x` (R185) -/
  | wrregDevidHi (x : Word)
  deriving DecidableEq, Repr

/-- The command's mnemonic, as the assembler line of spec/30_encoding.md R82 begins. -/
def Instr.mnemonic : Instr → String
  | .beginSession => "BEGIN"
  | .startConv => "START_CONV"
  | .pollConv => "POLL_CONV"
  | .readTemp => "READ_TEMP"
  | .setRes _ => "SET_RES"
  | .setAlarm _ => "SET_ALARM"
  | .checkAlarm => "CHECK_ALARM"
  | .paraOff => "PARA_OFF"
  | .paraOn => "PARA_ON"
  | .rdregStatus => "RDREG.STATUS"
  | .rdregRes => "RDREG.RES"
  | .rdregThr => "RDREG.THR"
  | .rdregDevidLo => "RDREG.DEVID_LO"
  | .rdregDevidHi => "RDREG.DEVID_HI"
  | .wrregRes _ => "WRREG.RES"
  | .wrregThr _ => "WRREG.THR"
  | .wrregDevidLo _ => "WRREG.DEVID_LO"
  | .wrregDevidHi _ => "WRREG.DEVID_HI"

end Sys2Proof
end

