-- ==== Sys2Proof/WellFormed.lean ====
section
/-! DEFINITION. Which commands have an encoding (spec/30_encoding.md R72). -/

namespace Sys2Proof

/-- The one operand the encoding restricts is that of `WRREG.RES`: "for n = 1 bits 31:8 must be zero" (R72).
Every other operand may be any 32-bit value (R76), an out-of-range `SET_RES` too (R85). -/
def Instr.wellFormed : Instr → Bool
  | .wrregRes x => x.extractLsb' 8 24 == 0
  | .beginSession | .startConv | .pollConv | .readTemp | .setRes _ | .setAlarm _ | .checkAlarm
  | .paraOff | .paraOn | .rdregStatus | .rdregRes | .rdregThr | .rdregDevidLo | .rdregDevidHi
  | .wrregThr _ | .wrregDevidLo _ | .wrregDevidHi _ => true

/-- The check as a proposition. -/
abbrev Instr.WellFormed (i : Instr) : Prop := i.wellFormed = true

end Sys2Proof
end

