-- ==== Sys2Proof/Decode.lean ====
section
/-! DEFINITION. The decoder of spec/30_encoding.md R85, total over the 2^40 command words, and the encoder of R72. -/

namespace Sys2Proof

/-- Why a word is ILLEGAL: the list of spec/30_encoding.md R79, one name each. -/
inductive IllegalWord where
  /-- no command has this opcode -/
  | unassigned (op : Byte)
  /-- a register read of a reserved register, 5 to 15 -/
  | reservedRead (n : Nat)
  /-- a write of the read-only `STATUS` -/
  | statusWrite
  /-- a register write of a reserved register, 5 to 15 -/
  | reservedWrite (n : Nat)
  /-- a format N or format R opcode with a non-zero operand -/
  | operandNotZero (op : Byte)
  /-- `WRREG.RES` with a bit above bit 7 -/
  | resTooWide
  deriving DecidableEq, Repr

/-- `op = w[39:32]` (R72). -/
def opField (w : CmdWord) : Byte := w.extractLsb' 32 8

/-- `arg = w[31:0]` (R72). -/
def argField (w : CmdWord) : Word := w.extractLsb' 0 32

/-- A command of format N or R: its operand must be zero (R85 step 2). -/
def noOperand (op : Byte) (arg : Word) (i : Instr) : Except IllegalWord Instr :=
  if arg = 0 then .ok i else .error (.operandNotZero op)

/-- Why an opcode that no row has is ILLEGAL (R79). -/
def illegalOp (op : Byte) : IllegalWord :=
  if 0x15 ≤ op.toNat ∧ op.toNat ≤ 0x1F then .reservedRead (op.toNat - 0x10)
  else if op.toNat = 0x20 then .statusWrite
  else if 0x25 ≤ op.toNat ∧ op.toNat ≤ 0x2F then .reservedWrite (op.toNat - 0x20)
  else .unassigned op

/-- R85 steps 2 to 5, on the two fields of the word. -/
def decodeFields (op : Byte) (arg : Word) : Except IllegalWord Instr :=
  if op = 0x01 then noOperand op arg .beginSession
  else if op = 0x02 then noOperand op arg .startConv
  else if op = 0x03 then noOperand op arg .pollConv
  else if op = 0x04 then noOperand op arg .readTemp
  else if op = 0x05 then .ok (.setRes arg)
  else if op = 0x06 then .ok (.setAlarm arg)
  else if op = 0x07 then noOperand op arg .checkAlarm
  else if op = 0x08 then noOperand op arg .paraOff
  else if op = 0x09 then noOperand op arg .paraOn
  else if op = 0x10 then noOperand op arg .rdregStatus
  else if op = 0x11 then noOperand op arg .rdregRes
  else if op = 0x12 then noOperand op arg .rdregThr
  else if op = 0x13 then noOperand op arg .rdregDevidLo
  else if op = 0x14 then noOperand op arg .rdregDevidHi
  else if op = 0x21 then
    if arg.extractLsb' 8 24 = 0 then .ok (.wrregRes arg) else .error .resTooWide
  else if op = 0x22 then .ok (.wrregThr arg)
  else if op = 0x23 then .ok (.wrregDevidLo arg)
  else if op = 0x24 then .ok (.wrregDevidHi arg)
  else .error (illegalOp op)

/-- The decoder (R85): a command, or the name of what makes the word ILLEGAL. -/
def decode (w : CmdWord) : Except IllegalWord Instr :=
  decodeFields (opField w) (argField w)

/-- The opcode of a command (R77). -/
def Instr.opcode : Instr → Byte
  | .beginSession => 0x01
  | .startConv => 0x02
  | .pollConv => 0x03
  | .readTemp => 0x04
  | .setRes _ => 0x05
  | .setAlarm _ => 0x06
  | .checkAlarm => 0x07
  | .paraOff => 0x08
  | .paraOn => 0x09
  | .rdregStatus => 0x10
  | .rdregRes => 0x11
  | .rdregThr => 0x12
  | .rdregDevidLo => 0x13
  | .rdregDevidHi => 0x14
  | .wrregRes _ => 0x21
  | .wrregThr _ => 0x22
  | .wrregDevidLo _ => 0x23
  | .wrregDevidHi _ => 0x24

/-- The operand of a command: zero for the formats N and R (R72). -/
def Instr.operand : Instr → Word
  | .setRes r => r
  | .setAlarm v => v
  | .wrregRes x => x
  | .wrregThr x => x
  | .wrregDevidLo x => x
  | .wrregDevidHi x => x
  | .beginSession | .startConv | .pollConv | .readTemp | .checkAlarm | .paraOff | .paraOn
  | .rdregStatus | .rdregRes | .rdregThr | .rdregDevidLo | .rdregDevidHi => 0

/-- The encoder: the word `{op, arg}` (R72, R82). -/
def encode (i : Instr) : CmdWord := i.opcode ++ i.operand

/-- The `match` value of the command's row in the opcode map (R77). -/
def Instr.rowMatch : Instr → CmdWord
  | .beginSession => 0x0100000000
  | .startConv => 0x0200000000
  | .pollConv => 0x0300000000
  | .readTemp => 0x0400000000
  | .setRes _ => 0x0500000000
  | .setAlarm _ => 0x0600000000
  | .checkAlarm => 0x0700000000
  | .paraOff => 0x0800000000
  | .paraOn => 0x0900000000
  | .rdregStatus => 0x1000000000
  | .rdregRes => 0x1100000000
  | .rdregThr => 0x1200000000
  | .rdregDevidLo => 0x1300000000
  | .rdregDevidHi => 0x1400000000
  | .wrregRes _ => 0x2100000000
  | .wrregThr _ => 0x2200000000
  | .wrregDevidLo _ => 0x2300000000
  | .wrregDevidHi _ => 0x2400000000

/-- The `mask` value of the command's row in the opcode map (R77). -/
def Instr.rowMask : Instr → CmdWord
  | .setRes _ | .setAlarm _ | .wrregThr _ | .wrregDevidLo _ | .wrregDevidHi _ => 0xFF00000000
  | .wrregRes _ => 0xFFFFFFFF00
  | .beginSession | .startConv | .pollConv | .readTemp | .checkAlarm | .paraOff | .paraOn
  | .rdregStatus | .rdregRes | .rdregThr | .rdregDevidLo | .rdregDevidHi => 0xFFFFFFFFFF

/-- The word that the low `nbits` bits of `w` give, the bits above them zero; a command is one 40-bit word, so a longer
one is none. -/
def tableWord (nbits w : Nat) : Option CmdWord :=
  if w % 2 ^ nbits < 2 ^ 40 then some (BitVec.ofNat 40 (w % 2 ^ nbits)) else none

/-- What the decoder reads from a word whose bits are numbered as spec/opcode_table.json numbers them. -/
def decodeTableWord (nbits w : Nat) : Option Instr :=
  match tableWord nbits w with
  | none => none
  | some c =>
    match decode c with
    | .ok i => some i
    | .error _ => none

end Sys2Proof
end

