-- ==== Sys2Proof/Config.lean ====
section
/-! DEFINITION. The parameters of spec/00_scope.md R7, the whole table as one configuration record, and the free values:
opaque constants of which nothing can be proved. -/

namespace Sys2Proof

/-- The type of a parameter that has one value: the record carries it, and no record carries another. -/
abbrev Fixed {α : Type} (v : α) := { x : α // x = v }

/-- The parameter table of spec/00_scope.md R7, row by row.
State carries one such record and no step changes it, so a statement about every state holds for every record: for every
value of the durations and of the rows marked OPEN, and for the one value of the others (notes/assumptions/1.md). -/
structure Config where
  /-- `T_RSTL`, reset low time, µs -/
  tRstl : Nat
  /-- `T_PDS`, release to presence sample, µs -/
  tPds : Nat
  /-- `T_RSTREM`, wait after the presence sample, µs -/
  tRstrem : Nat
  /-- `T_LOW`, initial low of every bit slot, µs -/
  tLow : Nat
  /-- `T_SLOT`, nominal bit slot, µs -/
  tSlot : Nat
  /-- `T_REC`, recovery after a write slot, µs, OPEN -/
  tRec : Nat
  /-- `T_RDS`, release to read sample, µs -/
  tRds : Nat
  /-- `T_RDREM`, wait after the read sample, µs -/
  tRdrem : Nat
  /-- `T_ALL`, check-alarm low time, µs -/
  tAll : Nat
  /-- `T_ALH`, check-alarm hold, µs -/
  tAlh : Nat
  /-- `T_ALS`, check-alarm release to sample, µs -/
  tAls : Nat
  /-- `AL_HOLD_MODE`, line mode during the check-alarm hold, OPEN -/
  alHoldMode : LineMode
  /-- `FAMILY`, the expected family code -/
  family : Fixed (0x28#8 : Byte)
  /-- `SP_LEN`, scratchpad image length, bytes -/
  spLen : Fixed 9
  /-- `DEVID_LEN`, device identifier length, bytes -/
  devidLen : Fixed 8
  /-- `RES_MIN`, the least accepted resolution -/
  resMin : Fixed 9
  /-- `RES_MAX`, the greatest accepted resolution -/
  resMax : Fixed 12
  /-- `CMD_CONVERT_T`, OPEN -/
  cmdConvertT : Byte
  /-- `CMD_READ_SP`, OPEN -/
  cmdReadSp : Byte
  /-- `TLO_IDX`, OPEN -/
  tloIdx : Fin 9
  /-- `THI_IDX`, OPEN -/
  thiIdx : Fin 9
  /-- `TEMP_SHIFT`, OPEN, an integer 0 to 15 (spec/46_arithmetic_and_data_movement.md R240) -/
  tempShift : Fin 16
  /-- `TEMP_SCALE`, 0.0625 °C, as a binary32 pattern -/
  tempScale : Fixed (0x3D800000#32 : Word)
  /-- `FLEN`, the width of a floating-point value, bits -/
  flen : Fixed 32
  /-- `NAN32`, the not-a-number sentinel -/
  nan32 : Fixed (0x7FC00000#32 : Word)
  /-- `CYC_PER_US`, clock cycles per microsecond, OPEN, an integer at least 1 -/
  cycPerUs : { n : Nat // 1 ≤ n }
  /-- `EE_ORIGIN`, the persistence cursor's origin, OPEN (the host's) -/
  eeOrigin : Nat
  /-- `EE_SIZE`, bytes in the persistence store, OPEN (the host's) -/
  eeSize : Nat
  deriving DecidableEq, Repr

namespace Config

/-- How many bytes one SAVE or one LOAD moves: the resolution's one, the threshold's, the identifier's
(spec/45_host_collaborators.md R193). -/
def savedBytes (cfg : Config) : Nat := 1 + cfg.flen / 8 + cfg.devidLen

/-- Free value: EE_SIZE at construction; the spec gives none (spec/91_not_in_source.md N17). -/
opaque eeSizeOpen : Nat

/-- Free value: CYC_PER_US less one; the spec says only that CYC_PER_US is an integer at least 1. -/
opaque extraCycles : Nat

/-- Free value: what RES holds at power-on (spec/10_state.md R28: "unspecified"). -/
opaque resetRes : Byte

/-- Free value: what THR holds at power-on (spec/10_state.md R29: "unspecified"). -/
opaque resetThr : Word

/-- Free value: the environment's answer to a sample once the scripted answers are used up, given the count of draws and
the whole line trace so far (spec/20_memory.md R61, spec/40_bit_signaling.md R104). -/
opaque envAnswer : Nat → Trace → Bool

/-- Free value: what a sample reads while the block drives high and the environment pulls low
(spec/40_bit_signaling.md R103). -/
opaque contention : Nat → Bool

/-- Free value: the 16 bits SET_ALARM sends for an operand outside the domain of enc16
(spec/43_config_alarm_power.md R165). -/
opaque enc16Draw : Nat → Word → BitVec 16

/-- Free value: the host's Fahrenheit result where binary32 does not hold the exact one
(spec/45_host_collaborators.md R190). -/
opaque c2fRound : Word → Word

/-- Free value: the byte a store address holds before anything was saved there
(spec/45_host_collaborators.md R192: "whatever bytes are there"). -/
opaque storeInit : Nat → Byte

/-- The default values of spec/00_scope.md R7. -/
def default : Config where
  tRstl := 480
  tPds := 60
  tRstrem := 420
  tLow := 2
  tSlot := 60
  tRec := 10
  tRds := 15
  tRdrem := 43
  tAll := 480
  tAlh := 2
  tAls := 15
  alHoldMode := .low
  family := ⟨_, rfl⟩
  spLen := ⟨_, rfl⟩
  devidLen := ⟨_, rfl⟩
  resMin := ⟨_, rfl⟩
  resMax := ⟨_, rfl⟩
  cmdConvertT := 0x44#8
  cmdReadSp := 0xBE#8
  tloIdx := 1
  thiIdx := 2
  tempShift := 4
  tempScale := ⟨_, rfl⟩
  flen := ⟨_, rfl⟩
  nan32 := ⟨_, rfl⟩
  cycPerUs := ⟨extraCycles + 1, Nat.le_add_left 1 extraCycles⟩
  eeOrigin := 0
  eeSize := eeSizeOpen

end Config

end Sys2Proof
end

