-- ==== Sys2Proof/Machine/State.lean ====
section
/-! DEFINITION. The state of the block, of its host and of the environment of the line, as plain data
(spec/10_state.md R20, spec/60_exceptions.md R210), and the state after reset (spec/70_reset_and_hazards.md R220). -/

namespace Sys2Proof.Machine

/-- The conversion state (spec/10_state.md R23). The code 3 is never produced. -/
inductive ConvState where
  | idle
  | converting
  | complete
  deriving DecidableEq, Repr

/-- Response codes (spec/30_encoding.md R74). The code 3 is never produced; the model stops where the hardware answers
UNDEF_SEQ (spec/42_session.md R145). -/
inductive RespCode where
  | ok
  | illegal
  | undefSeq
  deriving DecidableEq, Repr

/-- A response: 2-bit code and 32-bit data (spec/30_encoding.md R74). -/
structure Response where
  code : RespCode
  data : Word
  deriving DecidableEq, Repr

/-- The sequencer `SEQ` (spec/10_state.md R22) with the response channel (spec/30_encoding.md R73, R74). A command is one
step (R75), so `running` is seen inside a step only. -/
inductive Seq where
  /-- no command: `rsp_valid` = 0; `cmd_ready` = 1 unless `rst_n` is low -/
  | idle
  /-- a command was accepted and has not answered -/
  | running
  /-- `rsp_valid` = 1, `rsp` held, until the host takes it -/
  | responding (r : Response)
  deriving DecidableEq, Repr

/-- What the host does at one rising edge, and its pseudo-instructions (spec/60_exceptions.md R210,
spec/45_host_collaborators.md). -/
inductive HostInput where
  /-- `cmd_valid` = 1 with this command word -/
  | present (w : CmdWord)
  /-- the same, and `rst_n` goes low inside the command: after `events` whole line events and `micros` µs of the
  next one, if that one is a wait; with `events` past the number of the command's events, after its state writes
  (spec/70_reset_and_hazards.md R221) -/
  | presentThenReset (w : CmdWord) (events micros : Nat)
  /-- the same, and `clk` stops inside the command (spec/93_implementation_defined.md U5) -/
  | presentThenClockStop (w : CmdWord)
  /-- `rsp_ready` = 1 -/
  | take
  /-- `rst_n` goes to this level -/
  | rst (high : Bool)
  /-- SAVE (spec/45_host_collaborators.md R194) -/
  | save
  /-- LOAD (R195) -/
  | load
  /-- READ_F (R190) -/
  | readF
  deriving DecidableEq, Repr

/-- The host's persistence store: the bytes written, by address (spec/45_host_collaborators.md R192). -/
abbrev Memory := List Host.Cell

/-- Why a step can stop with a fault. -/
inductive Fault where
  /-- Raised by `execPollConv` for a `POLL_CONV` while `CONV` = IDLE, which the source calls undefined: "a model treats the
  case as a fault" (spec/42_session.md R145, spec/60_exceptions.md R202, R212, spec/93_implementation_defined.md U1). What the
  hardware answers is `undefSeqAnswer`. Safe: nothing is proved of what follows. -/
  | undefSeq
  /-- Raised by `runInput` when the clock stops inside a command: "outside this spec: stuck"
  (spec/93_implementation_defined.md U5). Safe: nothing is proved of what follows. -/
  | clockStopped
  deriving DecidableEq, Repr

/-- Why a step can be refused. -/
inductive Refusal where
  /-- Raised by `exec` for an instruction with no meaning yet; every instruction has one, so by none. Safe. -/
  | notModelled (mnemonic : String)
  /-- Raised by `save` and `load` when the cursor is within 13 bytes of the end of the store: "a model refuses it (no
  step)" (spec/45_host_collaborators.md R196). Safe. -/
  | storeExhausted
  deriving DecidableEq, Repr

/-- Everything the spec gives the machine, the host and the environment, and the model's own fields. -/
structure State where
  /-- the parameters of spec/00_scope.md R7; no step changes them -/
  cfg : Config
  /-- `LMODE` (spec/10_state.md R32) -/
  lmode : LineMode
  /-- `CONV` (R23) -/
  conv : ConvState
  /-- `PRES` (R24) -/
  pres : Bool
  /-- `RES`, register 1 (R28) -/
  res : Byte
  /-- `THR`, register 2 (R29) -/
  thr : Word
  /-- `DEVID[0..7]`, registers 3 and 4 (R30) -/
  devid : Vector Byte 8
  /-- `SP[0..8]` (R31) -/
  sp : Vector Byte 9
  /-- `SHREG` (R33) -/
  shreg : BitVec 16
  /-- `ACC` (R33) -/
  acc : Byte
  /-- `BITCNT` (R33) -/
  bitcnt : BitVec 5
  /-- `BYTECNT` (R33) -/
  bytecnt : BitVec 4
  /-- `SMP` (R25) -/
  smp : Bool
  /-- `TMR` (R34) -/
  tmr : Nat
  /-- `OPR` (R35) -/
  opr : Byte
  /-- `ARGR` (R35) -/
  argr : Word
  /-- `SEQ` and the response channel (R22, spec/30_encoding.md R74) -/
  seq : Seq
  /-- the level of `rst_n` (spec/30_encoding.md R70) -/
  rstN : Bool
  /-- the line trace since reset, oldest event first (spec/00_scope.md R11) -/
  trace : Trace
  /-- the model's own: the traces that earlier resets closed, oldest first -/
  pastTraces : List Trace
  /-- the environment: its next answers, oldest first (spec/40_bit_signaling.md R104) -/
  env : List Bool
  /-- the host: what it does next, oldest first -/
  host : List HostInput
  /-- the host: the responses it has taken, oldest first (spec/30_encoding.md R74) -/
  received : List Response
  /-- the host: what READ_F returned last (spec/45_host_collaborators.md R190) -/
  fahr : Option Word
  /-- the host: `CUR` (R191) -/
  cur : Nat
  /-- the host: the persistence store (R192) -/
  store : Memory
  /-- the model's own: how many free values have been drawn -/
  draws : Nat
  deriving DecidableEq, Repr

/-- The machine of given parameters right after reset (spec/70_reset_and_hazards.md R220, spec/10_state.md section 9), power
just on and the host just constructed, its cursor at `EE_ORIGIN` (spec/45_host_collaborators.md R191).
`RES` and `THR` hold free values (notes/assumptions/3.md); the registers that are dead between commands hold zero
(notes/assumptions/4.md). -/
def State.construct (cfg : Config) : State where
  cfg := cfg
  lmode := .rel
  conv := .idle
  pres := false
  res := Config.resetRes
  thr := Config.resetThr
  devid := Vector.replicate 8 0
  sp := Vector.replicate 9 0
  shreg := 0
  acc := 0
  bitcnt := 0
  bytecnt := 0
  smp := false
  tmr := 0
  opr := 0
  argr := 0
  seq := .idle
  rstN := true
  trace := []
  pastTraces := []
  env := []
  host := []
  received := []
  fahr := none
  cur := cfg.eeOrigin
  store := []
  draws := 0

/-- The machine right after reset, with the default parameters. -/
def State.reset : State := State.construct Config.default

end Sys2Proof.Machine
end

