-- ==== Sys2Proof/Machine/Flags.lean ====
section
/-! DEFINITION. The status view and the outputs: every field of STATUS (spec/10_state.md R27), the pads
(spec/30_encoding.md R71), the handshake wires and the response word (R73, R74). -/

namespace Sys2Proof.Machine

/-- The code of a line mode in `STATUS[1:0]` (spec/10_state.md R27). -/
def lmodeBits : LineMode → BitVec 2
  | .rel => 0
  | .low => 1
  | .high => 2

/-- The code of a conversion state in `STATUS[3:2]` (R23, R27). -/
def convBits : ConvState → BitVec 2
  | .idle => 0
  | .converting => 1
  | .complete => 2

/-- The code of a response (spec/30_encoding.md R74). -/
def codeBits : RespCode → BitVec 2
  | .ok => 0
  | .illegal => 1
  | .undefSeq => 2

/-- `PRES` for a presence sample `s`: its complement (spec/10_state.md R24). -/
def presOf (s : Bool) : Bool := !s

/-- `STATUS` = `{0[26:0], PRES, CONV[1:0], LMODE[1:0]}` (spec/44_register_access.md R180). -/
def statusWord (s : State) : Word :=
  (0#27 ++ BitVec.ofBool s.pres ++ convBits s.conv ++ lmodeBits s.lmode : BitVec (27 + 1 + 2 + 2))

/-- The response word: `rsp[33:32]` = code, `rsp[31:0]` = data (spec/30_encoding.md R74). -/
def rspWord (r : Response) : BitVec 34 := codeBits r.code ++ r.data

/-- The pad outputs (spec/30_encoding.md R70). -/
structure Pads where
  dqO : Bool
  dqOe : Bool
  dqPu : Bool
  deriving DecidableEq, Repr

/-- The pad outputs are "a pure function of LMODE at all times" (R71). -/
def padsOf : LineMode → Pads
  | .rel => ⟨false, false, true⟩
  | .low => ⟨false, true, false⟩
  | .high => ⟨true, true, false⟩

/-- The pad outputs of a state. -/
def pads (s : State) : Pads := padsOf s.lmode

/-- `cmd_ready`: 1 when the sequencer is idle and `rst_n` is high (R73, spec/70_reset_and_hazards.md R220). -/
def cmdReady (s : State) : Bool := s.rstN && s.seq == .idle

/-- `busy` = NOT `cmd_ready` (R70). -/
def busy (s : State) : Bool := !cmdReady s

/-- The response the block presents, if any: `rsp_valid` and `rsp` (R74). -/
def rspOut (s : State) : Option Response :=
  match s.seq with
  | .responding r => some r
  | .idle => none
  | .running => none

end Sys2Proof.Machine
end

