-- ==== Sys2Proof/Machine/LineTrace.lean ====
section
/-! DEFINITION. The line trace (spec/00_scope.md R11): when two are equal, its duration, its samples, and the
abbreviations RST, W, R, WB, RB, W16 with every parameter in place. -/

namespace Sys2Proof.Machine

/-- One event put before a trace that is already in normal form: adjacent waits merge and `Wait(0)` goes (R11). -/
def consEvent (e : LineEvent) (tr : Trace) : Trace :=
  match e, tr with
  | .wait n, .wait m :: rest => .wait (n + m) :: rest
  | .wait n, rest => if n = 0 then rest else .wait n :: rest
  | .drive m, rest => .drive m :: rest
  | .sample b, rest => .sample b :: rest

/-- A trace with its adjacent waits merged and its empty waits deleted (R11). -/
def normTrace : Trace → Trace
  | [] => []
  | e :: tr => consEvent e (normTrace tr)

/-- "Two traces are equal when they are equal after merging adjacent waits and deleting `Wait(0)`" (R11). -/
abbrev SameTrace (a b : Trace) : Prop := normTrace a = normTrace b

/-- Microseconds a trace lasts: the sum of its waits (spec/40_bit_signaling.md R102). -/
def duration : Trace → Nat
  | [] => 0
  | .wait n :: tr => n + duration tr
  | .drive _ :: tr => duration tr
  | .sample _ :: tr => duration tr

/-- Clock cycles a trace lasts: `n × CYC_PER_US` for each `Wait(n)` (R102). -/
def cycles (cfg : Config) (tr : Trace) : Nat := duration tr * cfg.cycPerUs.val

/-- The samples of a trace, in order. -/
def samples : Trace → List Bool
  | [] => []
  | .sample b :: tr => b :: samples tr
  | .drive _ :: tr => samples tr
  | .wait _ :: tr => samples tr

/-- The line mode a trace leaves, from the mode `m` before it: that of its last `Drive`. -/
def endMode (m : LineMode) : Trace → LineMode
  | [] => m
  | .drive m' :: tr => endMode m' tr
  | .wait _ :: tr => endMode m tr
  | .sample _ :: tr => endMode m tr

/-- `RST[s]` (spec/40_bit_signaling.md R106). -/
def traceRST (cfg : Config) (s : Bool) : Trace :=
  [.drive .low, .wait cfg.tRstl, .drive .rel, .wait cfg.tPds, .sample s]
    ++ (if s then [] else [.drive .high]) ++ [.wait cfg.tRstrem]

/-- `W[b]` (R108), the waits as the micro-operation makes them. -/
def traceW (cfg : Config) (b : Bool) : Trace :=
  if b then
    [.drive .low, .wait cfg.tLow, .drive .rel, .wait (cfg.tSlot - cfg.tLow), .wait cfg.tRec]
  else
    [.drive .low, .wait cfg.tLow, .wait (cfg.tSlot - cfg.tLow), .drive .rel, .wait cfg.tRec]

/-- The part of `R[s]` before its sample (R110). -/
def traceROpen (cfg : Config) : Trace :=
  [.drive .low, .wait cfg.tLow, .drive .rel, .wait cfg.tRds]

/-- `R[s]` (R110). -/
def traceR (cfg : Config) (s : Bool) : Trace :=
  traceROpen cfg ++ [.sample s, .wait cfg.tRdrem]

/-- Write slots for the bits `from`, `from + 1`, … of `v`, `n` of them. -/
def traceSlots (cfg : Config) {w : Nat} (v : BitVec w) : (n from' : Nat) → Trace
  | 0, _ => []
  | n + 1, i => traceW cfg (v.getLsbD i) ++ traceSlots cfg v n (i + 1)

/-- `WB(v)`: 8 write slots, bit 0 first (spec/41_byte_framing.md R130). -/
def traceWB (cfg : Config) (v : Byte) : Trace := traceSlots cfg v 8 0

/-- `W16(v)`: 16 write slots, bit 0 first (R132). -/
def traceW16 (cfg : Config) (v : BitVec 16) : Trace := traceSlots cfg v 16 0

/-- Read slots that deliver the bits `i`, `i + 1`, … of `v`, `n` of them. -/
def traceReads (cfg : Config) {w : Nat} (v : BitVec w) : (n from' : Nat) → Trace
  | 0, _ => []
  | n + 1, i => traceR cfg (v.getLsbD i) ++ traceReads cfg v n (i + 1)

/-- `RB(v)`: 8 read slots, bit 0 first (R131). -/
def traceRB (cfg : Config) (v : Byte) : Trace := traceReads cfg v 8 0

/-- The read slots of several bytes, in order (spec/42_session.md R146). -/
def traceRBs (cfg : Config) : List Byte → Trace
  | [] => []
  | v :: vs => traceRB cfg v ++ traceRBs cfg vs

/-- The bits of a byte in the order the line carries them, bit 0 first (spec/20_memory.md R52). -/
def byteBits (v : Byte) : List Bool := (List.range 8).map v.getLsbD

/-- The bits of several bytes in the order the line carries them. -/
def bytesBits : List Byte → List Bool
  | [] => []
  | v :: vs => byteBits v ++ bytesBits vs

/-- The trace of `CHECK_ALARM` (spec/43_config_alarm_power.md R167) up to its sample. -/
def traceAlarmOpen (cfg : Config) : Trace :=
  [.drive .low, .wait cfg.tAll, .drive .rel, .drive cfg.alHoldMode, .wait cfg.tAlh, .drive .rel,
    .wait cfg.tAls]

/-- What a trace shows when it is cut after `events` whole events and `micros` µs of the next, if that one is a wait
(spec/70_reset_and_hazards.md R221). -/
def cutTrace (events micros : Nat) (tr : Trace) : Trace :=
  match tr.drop events with
  | .wait n :: _ => tr.take events ++ [.wait (min n micros)]
  | _ => tr.take events

end Sys2Proof.Machine
end

