-- ==== Sys2Proof/Machine/Operands.lean ====
section
/-! DEFINITION. The arithmetic of the commands (spec/46_arithmetic_and_data_movement.md R240 to R242): the resolution
pattern, byte and word assembly, binary32 read and written as exact integers, `enc16`, `decodeTemp`, `c2f`. -/

namespace Sys2Proof.Machine

/-! ## Bytes and words -/

/-- Byte `i` of a word, byte 0 the least significant. -/
def wordByte (w : Word) (i : Nat) : Byte := w.extractLsb' (8 * i) 8

/-- `{b3, b2, b1, b0}` (spec/10_state.md R30). -/
def wordOfBytes (b0 b1 b2 b3 : Byte) : Word := b3 ++ b2 ++ b1 ++ b0

/-! ## SET_RES -/

/-- "9 <= r and r <= 12" on the whole unsigned operand (spec/43_config_alarm_power.md R160, R240). -/
def resAccepted (cfg : Config) (r : Word) : Bool := cfg.resMin ≤ r.toNat && r.toNat ≤ cfg.resMax

/-- `((r - 9) << 5)[7:0]` (R160). -/
def resPattern (cfg : Config) (r : Word) : Byte := ((r - BitVec.ofNat 32 cfg.resMin) <<< 5).extractLsb' 0 8

/-! ## Binary32 as exact integers

A finite binary32 value is an integer multiple of 2^-149; that integer is its "scaled" value. -/

/-- The exponent field, bits 30:23 (spec/30_encoding.md R76). -/
def f32Exp (v : Word) : Nat := (v.extractLsb' 23 8).toNat

/-- The fraction field, bits 22:0 (R76). -/
def f32Frac (v : Word) : Nat := (v.extractLsb' 0 23).toNat

/-- A not-a-number pattern: exponent 255 and a non-zero fraction (spec/93_implementation_defined.md G3). -/
def isNaN (v : Word) : Bool := f32Exp v == 255 && f32Frac v != 0

/-- A finite pattern: exponent not 255. -/
def isFinite (v : Word) : Bool := f32Exp v != 255

/-- The magnitude of a finite pattern, in units of 2^-149; a subnormal at its real value (R241 b). -/
def f32Mag (v : Word) : Nat :=
  if f32Exp v = 0 then f32Frac v else (2 ^ 23 + f32Frac v) * 2 ^ (f32Exp v - 1)

/-- `real(v)` of spec/00_scope.md R9 for a finite pattern, in units of 2^-149. -/
def f32Scaled (v : Word) : Int := if v.msb then -(f32Mag v : Int) else (f32Mag v : Int)

/-- How many low bits binary32 has no room for in a magnitude. -/
def f32Drop (m : Nat) : Nat := m.log2 - 23

/-- Does binary32 hold this many units of 2^-149 exactly? -/
def f32Holds (n : Int) : Bool :=
  n.natAbs % 2 ^ f32Drop n.natAbs == 0 && f32Drop n.natAbs ≤ 253

/-- `f32(q)` of spec/00_scope.md R9 for `q` = `n` units of 2^-149 that binary32 holds exactly. Zero gives +0.0. -/
def f32OfScaled (n : Int) : Word :=
  (if n < 0 then 0x80000000#32 else 0#32) |||
    BitVec.ofNat 32 (f32Drop n.natAbs * 2 ^ 23 + n.natAbs / 2 ^ f32Drop n.natAbs)

/-! ## enc16 -/

/-- `m / 2^145` rounded to the nearest integer, a tie upward: with `m` a magnitude in units of 2^-149 this is 16 times the
value, rounded (spec/43_config_alarm_power.md R164). -/
def roundSixteenths (m : Nat) : Nat := (2 * m + 2 ^ 145) / 2 ^ 146

/-- The integer `n` of R164: 16 × `real(v)` rounded to the nearest integer, "a tie going to the integer of larger
magnitude". -/
def alarmInt (v : Word) : Int :=
  if v.msb then -(roundSixteenths (f32Mag v) : Int) else (roundSixteenths (f32Mag v) : Int)

/-- The domain of `enc16` (R164): `v` finite and -32768 ≤ `n` ≤ 32767. -/
def alarmFits (v : Word) : Bool := isFinite v && -32768 ≤ alarmInt v && alarmInt v ≤ 32767

/-- `enc16(v)`: the two's complement pattern of `n` in the domain (R164); outside it the free value `free`, "a draw (any
16-bit value)" (R165). -/
def enc16 (v : Word) (free : BitVec 16) : BitVec 16 :=
  if alarmFits v then BitVec.ofInt 16 (alarmInt v) else free

/-! ## decodeTemp -/

/-- `{SP[THI_IDX], SP[TLO_IDX]}` (spec/42_session.md R147). -/
def tempWord (cfg : Config) (sp : Vector Byte 9) : BitVec 16 := sp[cfg.thiIdx] ++ sp[cfg.tloIdx]

/-- `t = signed_16(word) >>a TEMP_SHIFT`: floor(x / 2^TEMP_SHIFT) (R147, R240). -/
def tempInt (cfg : Config) (sp : Vector Byte 9) : Int :=
  (tempWord cfg sp).toInt / 2 ^ (cfg.tempShift : Nat)

/-- `decodeTemp(SP)` = `f32(t × TEMP_SCALE)` (R147). -/
def decodeTemp (cfg : Config) (sp : Vector Byte 9) : Word := f32OfScaled (tempInt cfg sp * f32Scaled cfg.tempScale)

/-- The data of a `READ_TEMP` response: the sentinel on a family mismatch, else the temperature (R146). -/
def readTempData (cfg : Config) (sp : Vector Byte 9) : Word :=
  if sp[0] ≠ cfg.family then cfg.nan32 else decodeTemp cfg sp

/-! ## c2f, the host's -/

/-- Nine fifths of a scaled value plus 32, in units of 2^-149, where that is an integer. -/
def fahrenheitScaled (n : Int) : Int := 9 * n / 5 + 32 * 2 ^ 149

/-- Does binary32 hold the exact Fahrenheit value of this pattern? -/
def fahrenheitExact (c : Word) : Bool :=
  isFinite c && f32Scaled c % 5 == 0 && f32Holds (fahrenheitScaled (f32Scaled c))

/-- A pattern with its fraction cleared if it is a not-a-number: any pattern that is none, and no other, can result. -/
def notNaN (v : Word) : Word := if isNaN v then v &&& 0xFF800000#32 else v

/-- `c2f(c)` (spec/45_host_collaborators.md R190): the exact value where binary32 holds it, else a free value; for a finite
`c` the free value is any that is no not-a-number, since `c2f` "maps no finite c to a not-a-number". -/
def c2f (c : Word) : Word :=
  if fahrenheitExact c then f32OfScaled (fahrenheitScaled (f32Scaled c))
  else if isFinite c then notNaN (Config.c2fRound c)
  else Config.c2fRound c

/-- What READ_F returns for a Celsius pattern: a not-a-number unchanged, else `c2f` (R190). -/
def readFData (c : Word) : Word := if isNaN c then c else c2f c

end Sys2Proof.Machine
end

