-- ==== Sys2Proof/Machine/Store.lean ====
section
/-! DEFINITION. The persistence store as canonical data (spec/45_host_collaborators.md R192): reads, writes, the canonical
form. An address that was never written is unlisted and holds no value of the model's; a load there gives the free value
`Config.storeInit` (notes/assumptions/13.md). -/

namespace Sys2Proof.Machine

/-- The byte written at an address, if any. -/
def storeGet (m : Memory) (a : Nat) : Option Byte :=
  match m with
  | [] => none
  | (k, b) :: rest => if k = a then some b else storeGet rest a

/-- The byte a load finds at an address: "whatever bytes are there" where nothing was saved (R192). -/
def storeRead (m : Memory) (a : Nat) : Byte := (storeGet m a).getD (Config.storeInit a)

/-- One byte written; the list stays sorted. -/
def storeWrite (m : Memory) (a : Nat) (b : Byte) : Memory :=
  match m with
  | [] => [(a, b)]
  | (k, c) :: rest =>
    if a < k then (a, b) :: (k, c) :: rest
    else if a = k then (a, b) :: rest
    else (k, c) :: storeWrite rest a b

/-- `MemWrite(a, n, b)`: the bytes in order, lowest address first (R192). -/
def memWrite (m : Memory) (a : Nat) : List Byte → Memory
  | [] => m
  | b :: bs => memWrite (storeWrite m a b) (a + 1) bs

/-- `MemRead(a, n)`: `n` bytes, lowest address first (R192). -/
def memRead (m : Memory) (a : Nat) : Nat → List Byte
  | 0 => []
  | n + 1 => storeRead m a :: memRead m (a + 1) n

/-- The addresses of the list rise strictly, from above `a`. -/
def storeAbove (a : Nat) : Memory → Bool
  | [] => true
  | (k, _) :: rest => a < k && storeAbove k rest

/-- The canonical form: addresses strictly rising. No unlisted address holds a byte, so no entry can equal one. -/
def Memory.wf : Memory → Bool
  | [] => true
  | (k, _) :: rest => storeAbove k rest

end Sys2Proof.Machine
end

