-- ==== Sys2Proof/Machine/Ops.lean ====
section
/-! DEFINITION. The operations every command is made of: the line primitives and micro-operations of
spec/40_bit_signaling.md, the byte serializer of spec/41_byte_framing.md, the response and error responses of
spec/30_encoding.md R74 and spec/60_exceptions.md, acceptance, the register writes, reset. -/

namespace Sys2Proof.Machine

/-! ## The environment and the level of the line -/

/-- The environment's answer to the next sample (spec/40_bit_signaling.md R104): the next of its answers to come, or a
free value of the trace so far. -/
def envAnswer (s : State) : Bool :=
  match s.env with
  | e :: _ => e
  | [] => Config.envAnswer s.draws s.trace

/-- `level(LMODE, e)` (R103); `c` is what contention reads, a draw. -/
def level (m : LineMode) (e c : Bool) : Bool :=
  match m with
  | .rel => e
  | .low => false
  | .high => if e then true else c

/-- What `Sample()` reads in this state (R103). -/
def sampleValue (s : State) : Bool := level s.lmode (envAnswer s) (Config.contention s.draws)

/-- What the environment would answer in this state if the line trace so far were `tr`: its answer depends on its script,
the count of draws and the trace, and on nothing else of the state. -/
def answerAt (s : State) (tr : Trace) : Bool := envAnswer { s with trace := tr }

/-- The environment's answer to the presence sample of a command that starts here (R106). -/
def presenceAnswer (s : State) : Bool :=
  answerAt s (s.trace ++ [.drive .low, .wait s.cfg.tRstl, .drive .rel, .wait s.cfg.tPds])

/-- The environment's answer to the sample of a read slot that starts here (R110). -/
def readAnswer (s : State) : Bool := answerAt s (s.trace ++ traceROpen s.cfg)

/-- The environment's answer to the sample of a `CHECK_ALARM` that starts here (spec/43_config_alarm_power.md R167). -/
def alarmAnswer (s : State) : Bool := answerAt s (s.trace ++ traceAlarmOpen s.cfg)

/-! ## Line primitives -/

/-- `Line(m)` (R101): the event is recorded even when the mode does not change. -/
def line (m : LineMode) (s : State) : State :=
  { s with lmode := m, trace := s.trace ++ [.drive m] }

/-- `Delay(n)` (R102): `TMR` is loaded and has counted to zero when the delay ends (spec/10_state.md R34). -/
def delay (n : Nat) (s : State) : State :=
  { s with tmr := 0, trace := s.trace ++ [.wait n] }

/-- `Sample()` (R103): the value read goes to `SMP`; the line mode is not changed. -/
def sample (s : State) : State :=
  { s with
    smp := sampleValue s
    trace := s.trace ++ [.sample (sampleValue s)]
    env := s.env.tail
    draws := s.draws + 1 }

/-! ## Micro-operations -/

/-- `presenceReset()` (R106): the line is driven high only after a low sample; the remainder is waited in both cases. -/
def presenceReset (s : State) : State :=
  let s := delay s.cfg.tRstl (line .low s)
  let s := delay s.cfg.tPds (line .rel s)
  let s := sample s
  let s := { s with pres := presOf s.smp }
  let s := if s.smp then s else line .high s
  delay s.cfg.tRstrem s

/-- `writeBitSlot(b)` (R108). -/
def writeBitSlot (b : Bool) (s : State) : State :=
  let s := delay s.cfg.tLow (line .low s)
  let s :=
    if b then delay (s.cfg.tSlot - s.cfg.tLow) (line .rel s)
    else line .rel (delay (s.cfg.tSlot - s.cfg.tLow) s)
  delay s.cfg.tRec s

/-- `readBitSlot()` (R110); the bit returned is left in `SMP`. -/
def readBitSlot (s : State) : State :=
  let s := delay s.cfg.tLow (line .low s)
  let s := delay s.cfg.tRds (line .rel s)
  let s := sample s
  delay s.cfg.tRdrem s

/-! ## The byte serializer -/

/-- `n` slots of `writeByte`: send `SHREG[0]`, shift `SHREG[7:0]` right, count (spec/41_byte_framing.md R130). -/
def shiftOutByte : Nat → State → State
  | 0, s => s
  | n + 1, s =>
    let s := writeBitSlot (s.shreg.getLsbD 0) s
    shiftOutByte n
      { s with
        shreg := (s.shreg.extractLsb' 8 8 ++ ((s.shreg.extractLsb' 0 8) >>> 1) : BitVec (8 + 8))
        bitcnt := s.bitcnt - 1 }

/-- `writeByte(v)` (R130). -/
def writeByte (v : Byte) (s : State) : State :=
  shiftOutByte 8 { s with shreg := (s.shreg.extractLsb' 8 8 ++ v : BitVec (8 + 8)), bitcnt := 8 }

/-- `n` slots of `writeBits16`: send `SHREG[0]`, shift `SHREG` right, count (R132). -/
def shiftOut16 : Nat → State → State
  | 0, s => s
  | n + 1, s =>
    let s := writeBitSlot (s.shreg.getLsbD 0) s
    shiftOut16 n { s with shreg := s.shreg >>> 1, bitcnt := s.bitcnt - 1 }

/-- `writeBits16(v)` (R132). -/
def writeBits16 (v : BitVec 16) (s : State) : State :=
  shiftOut16 16 { s with shreg := v, bitcnt := 16 }

/-- `n` slots of `readByte`, the first for bit `i`: `ACC <- ACC OR (zext_8(s) << i)` (R131). -/
def shiftIn : (n i : Nat) → State → State
  | 0, _, s => s
  | n + 1, i, s =>
    let s := readBitSlot s
    shiftIn n (i + 1)
      { s with
        acc := s.acc ||| ((BitVec.ofBool s.smp).setWidth 8 <<< i)
        bitcnt := s.bitcnt - 1 }

/-- `readByte()` (R131); the byte returned is left in `ACC`. -/
def readByte (s : State) : State :=
  shiftIn 8 0 { s with acc := 0, bitcnt := 8 }

/-- `n` bytes of the scratchpad read, the first to index `i`: `SP[i] <- readByte()` (spec/42_session.md R146). -/
def readBytes : (n i : Nat) → State → State
  | 0, _, s => s
  | n + 1, i, s =>
    let s := readByte s
    readBytes n (i + 1) { s with sp := s.sp.setIfInBounds i s.acc, bytecnt := s.bytecnt + 1 }

/-- The `SP_LEN` reads of `READ_TEMP`, into `SP[0]` to `SP[8]` (R146). -/
def readScratchpad (s : State) : State := readBytes s.cfg.spLen 0 { s with bytecnt := 0 }

/-- A command sequence toward the sensor: `presenceReset()`, then one command byte (spec/42_session.md R141). -/
def commandSequence (c : Byte) (s : State) : State := writeByte c (presenceReset s)

/-! ## Registers -/

/-- `CONV <- c`. -/
def setConv (c : ConvState) (s : State) : State := { s with conv := c }

/-- `RES <- x` (spec/44_register_access.md R183). -/
def setRes (x : Byte) (s : State) : State := { s with res := x }

/-- `THR <- x` (R184). -/
def setThr (x : Word) (s : State) : State := { s with thr := x }

/-- `DEVID[0..3]` written from a word, byte 0 first (R185). -/
def setDevidLo (x : Word) (s : State) : State :=
  { s with
    devid :=
      #v[wordByte x 0, wordByte x 1, wordByte x 2, wordByte x 3,
        s.devid[4], s.devid[5], s.devid[6], s.devid[7]] }

/-- `DEVID[4..7]` written from a word, byte 0 first (R185). -/
def setDevidHi (x : Word) (s : State) : State :=
  { s with
    devid :=
      #v[s.devid[0], s.devid[1], s.devid[2], s.devid[3],
        wordByte x 0, wordByte x 1, wordByte x 2, wordByte x 3] }

/-- `{DEVID[3], DEVID[2], DEVID[1], DEVID[0]}` (spec/10_state.md R30). -/
def devidLo (s : State) : Word := wordOfBytes s.devid[0] s.devid[1] s.devid[2] s.devid[3]

/-- `{DEVID[7], DEVID[6], DEVID[5], DEVID[4]}` (R30). -/
def devidHi (s : State) : Word := wordOfBytes s.devid[4] s.devid[5] s.devid[6] s.devid[7]

/-- The free value for an operand of `SET_ALARM` outside the domain of `enc16` (spec/43_config_alarm_power.md R165), in
this state. -/
def alarmDraw (v : Word) (s : State) : BitVec 16 := Config.enc16Draw s.draws v

/-- One free value has been drawn. -/
def countDraw (s : State) : State := { s with draws := s.draws + 1 }

/-! ## Responses and the handshake -/

/-- `Respond(code, d)`: the single response of the command (spec/30_encoding.md R74). -/
def respond (code : RespCode) (d : Word) (s : State) : State :=
  { s with seq := .responding ⟨code, d⟩ }

/-- The data of a boolean result: 1 for true, 0 for false (R74). -/
def boolData (b : Bool) : Word := if b then 1 else 0

/-- An error response, the one operation both error conditions share: `Respond(code, 0)` "with no state change and no line
event" (spec/60_exceptions.md R201, R202). There is no trap entry and so no return from one (R206, R207). For UNDEF_SEQ it is
the hardware's answer only; the machine faults there (`undefSeqAnswer`). -/
def raiseError (code : RespCode) (s : State) : State := respond code 0 s

/-- Acceptance: the word is latched in `OPR`, `ARGR` and the command starts (spec/30_encoding.md R73). -/
def accept (w : CmdWord) (s : State) : State :=
  { s with opr := w.extractLsb' 32 8, argr := w.extractLsb' 0 32, seq := .running }

/-- The host takes the response: `rsp_valid` drops and the block is ready again (R74). Without a response out, nothing
happens. -/
def takeResponse (s : State) : State :=
  match s.seq with
  | .responding r => { s with seq := .idle, received := s.received ++ [r] }
  | .idle => s
  | .running => s

/-! ## Reset -/

/-- `rst_n` goes low (spec/70_reset_and_hazards.md R220): what R220 resets is reset, the rest is not; the line trace starts
empty. The registers R220 does not reset keep what they hold (notes/assumptions/5.md). -/
def resetLow (s : State) : State :=
  { s with
    lmode := .rel
    conv := .idle
    pres := false
    devid := Vector.replicate 8 0
    tmr := 0
    seq := .idle
    rstN := false
    trace := []
    pastTraces := s.pastTraces ++ [s.trace] }

/-- `rst_n` goes to a level: low resets (once; held low nothing more happens), high lets the block accept again (R220). -/
def setRst (high : Bool) (s : State) : State :=
  if high then { s with rstN := true } else if s.rstN then resetLow s else s

end Sys2Proof.Machine
end

