-- ==== Sys2Proof/Machine/AlarmPower.lean ====
section
/-! DEFINITION. The alarm check and the parasitic-power line controls (spec/43_config_alarm_power.md): CHECK_ALARM,
PARA_OFF, PARA_ON. -/

namespace Sys2Proof.Machine

/-- The pulse of `CHECK_ALARM` up to its sample (R167): not a `presenceReset()`, so `PRES` is not written. -/
def alarmPulse (s : State) : State :=
  let s := delay s.cfg.tAll (line .low s)
  let s := line s.cfg.alHoldMode (line .rel s)
  let s := delay s.cfg.tAlh s
  delay s.cfg.tAls (line .rel s)

/-- `CHECK_ALARM` (R167): a low sample is an active alarm. -/
def execCheckAlarm (s : State) : Host.Outcome State Fault Refusal :=
  let s := sample (alarmPulse s)
  .next (respond .ok (boolData (!s.smp)) s)

/-- `PARA_OFF` (R170). -/
def execParaOff (s : State) : Host.Outcome State Fault Refusal :=
  .next (respond .ok 0 (line .low s))

/-- `PARA_ON` (R171). -/
def execParaOn (s : State) : Host.Outcome State Fault Refusal :=
  .next (respond .ok 0 (line .rel s))

end Sys2Proof.Machine
end

