-- ==== Sys2Proof/Machine/Configure.lean ====
section
/-! DEFINITION. The configuration commands (spec/43_config_alarm_power.md): SET_RES, SET_ALARM. -/

namespace Sys2Proof.Machine

/-- `SET_RES r` (R160): outside 9 to 12 nothing happens, and the answer is the same. -/
def execSetRes (r : Word) (s : State) : Host.Outcome State Fault Refusal :=
  if resAccepted s.cfg r then
    .next (respond .ok 0 (setRes (r.extractLsb' 0 8) (writeByte (resPattern s.cfg r) s)))
  else .next (respond .ok 0 s)

/-- `SET_ALARM v` (R163): 16 slots for every operand, then `THR <- v` unchanged. -/
def execSetAlarm (v : Word) (s : State) : Host.Outcome State Fault Refusal :=
  .next (respond .ok 0 (setThr v (writeBits16 (enc16 v (alarmDraw v s)) (countDraw s))))

end Sys2Proof.Machine
end

