-- ==== Sys2Proof/Machine/Registers.lean ====
section
/-! DEFINITION. The register commands (spec/44_register_access.md): RDREG.*, WRREG.*. None touches the line. -/

namespace Sys2Proof.Machine

/-- `RDREG.STATUS` (R180). -/
def execRdregStatus (s : State) : Host.Outcome State Fault Refusal :=
  .next (respond .ok (statusWord s) s)

/-- `RDREG.RES` (R181): zero-extended. -/
def execRdregRes (s : State) : Host.Outcome State Fault Refusal :=
  .next (respond .ok (s.res.setWidth 32) s)

/-- `RDREG.THR` (R181): bit for bit as stored. -/
def execRdregThr (s : State) : Host.Outcome State Fault Refusal :=
  .next (respond .ok s.thr s)

/-- `RDREG.DEVID_LO` (R181). -/
def execRdregDevidLo (s : State) : Host.Outcome State Fault Refusal :=
  .next (respond .ok (devidLo s) s)

/-- `RDREG.DEVID_HI` (R181). -/
def execRdregDevidHi (s : State) : Host.Outcome State Fault Refusal :=
  .next (respond .ok (devidHi s) s)

/-- `WRREG.RES x` (R183): any byte, not checked against 9 to 12. Bits above bit 7 make the word ILLEGAL (R186); the decoder
gives no such command, and the meaning answers it the same way. -/
def execWrregRes (x : Word) (s : State) : Host.Outcome State Fault Refusal :=
  if x.extractLsb' 8 24 = 0 then .next (respond .ok 0 (setRes (x.extractLsb' 0 8) s))
  else .next (raiseError .illegal s)

/-- `WRREG.THR x` (R184). -/
def execWrregThr (x : Word) (s : State) : Host.Outcome State Fault Refusal :=
  .next (respond .ok 0 (setThr x s))

/-- `WRREG.DEVID_LO x` (R185). -/
def execWrregDevidLo (x : Word) (s : State) : Host.Outcome State Fault Refusal :=
  .next (respond .ok 0 (setDevidLo x s))

/-- `WRREG.DEVID_HI x` (R185). -/
def execWrregDevidHi (x : Word) (s : State) : Host.Outcome State Fault Refusal :=
  .next (respond .ok 0 (setDevidHi x s))

end Sys2Proof.Machine
end

