-- ==== Sys2Proof/Machine/Session.lean ====
section
/-! DEFINITION. The session commands (spec/42_session.md): BEGIN, START_CONV, POLL_CONV, READ_TEMP. -/

namespace Sys2Proof.Machine

/-- `BEGIN` (R140). -/
def execBegin (s : State) : Host.Outcome State Fault Refusal :=
  .next (respond .ok 0 (presenceReset s))

/-- `START_CONV` (R142): `CONV` becomes CONVERTING whatever it was. -/
def execStartConv (s : State) : Host.Outcome State Fault Refusal :=
  .next (respond .ok 0 (setConv .converting (commandSequence s.cfg.cmdConvertT s)))

/-- The poll of a running conversion (R144): one sample in the mode the line is in; a high sample latches COMPLETE. -/
def pollConverting (s : State) : State :=
  let s := sample s
  if s.smp then respond .ok (boolData true) (setConv .complete s) else respond .ok (boolData false) s

/-- What the hardware of the spec does with a `POLL_CONV` in IDLE (R145, R149; spec/60_exceptions.md R200, R202):
`Respond(2, 0)`, no sample, no line event, no state change. A record only: no step goes here, because "a model treats the
case as a fault" and "no claim may rest on the response code" (R145). -/
def undefSeqAnswer (s : State) : State := raiseError .undefSeq s

/-- `POLL_CONV` (R144, R145). In IDLE it is a fault: "the faulted run proves nothing" (spec/60_exceptions.md R212;
spec/93_implementation_defined.md U1). -/
def execPollConv (s : State) : Host.Outcome State Fault Refusal :=
  match s.conv with
  | .idle => .fault .undefSeq
  | .complete => .next (respond .ok (boolData true) s)
  | .converting => .next (pollConverting s)

/-- `READ_TEMP` (R146): all nine bytes are read before the family check. -/
def execReadTemp (s : State) : Host.Outcome State Fault Refusal :=
  let s := readScratchpad (commandSequence s.cfg.cmdReadSp s)
  .next (respond .ok (readTempData s.cfg s.sp) s)

end Sys2Proof.Machine
end

