-- ==== Sys2Proof/Machine/Dispatch.lean ====
section
/-! DEFINITION. One arm per command (spec/30_encoding.md R77). -/

namespace Sys2Proof.Machine

def exec (i : Instr) (s : State) : Host.Outcome State Fault Refusal :=
  match i with
  | .beginSession => Sys2Proof.Machine.execBegin s
  | .startConv => Sys2Proof.Machine.execStartConv s
  | .pollConv => Sys2Proof.Machine.execPollConv s
  | .readTemp => Sys2Proof.Machine.execReadTemp s
  | .setRes r => Sys2Proof.Machine.execSetRes r s
  | .setAlarm v => Sys2Proof.Machine.execSetAlarm v s
  | .checkAlarm => Sys2Proof.Machine.execCheckAlarm s
  | .paraOff => Sys2Proof.Machine.execParaOff s
  | .paraOn => Sys2Proof.Machine.execParaOn s
  | .rdregStatus => Sys2Proof.Machine.execRdregStatus s
  | .rdregRes => Sys2Proof.Machine.execRdregRes s
  | .rdregThr => Sys2Proof.Machine.execRdregThr s
  | .rdregDevidLo => Sys2Proof.Machine.execRdregDevidLo s
  | .rdregDevidHi => Sys2Proof.Machine.execRdregDevidHi s
  | .wrregRes x => Sys2Proof.Machine.execWrregRes x s
  | .wrregThr x => Sys2Proof.Machine.execWrregThr x s
  | .wrregDevidLo x => Sys2Proof.Machine.execWrregDevidLo x s
  | .wrregDevidHi x => Sys2Proof.Machine.execWrregDevidHi x s

end Sys2Proof.Machine
end

