-- ==== Sys2Proof/Machine/HostPort.lean ====
section
/-! DEFINITION. What each input of the host does: a command word (spec/30_encoding.md R73, R79, R85), taking a response
(R74), reset (spec/70_reset_and_hazards.md R220, R221), and the host's pseudo-instructions SAVE, LOAD, READ_F
(spec/45_host_collaborators.md). -/

namespace Sys2Proof.Machine

/-- Go on from a next state; a fault or a refusal stays. -/
def andThen (o : Host.Outcome State Fault Refusal)
    (f : State → Host.Outcome State Fault Refusal) : Host.Outcome State Fault Refusal :=
  match o with
  | .next s => f s
  | .fault r => .fault r
  | .refused r => .refused r

/-- A command word accepted and run: decoding comes first (spec/60_exceptions.md R205); an ILLEGAL word answers code 1 and
does nothing else (spec/44_register_access.md R186). -/
def runWord (w : CmdWord) (s : State) : Host.Outcome State Fault Refusal :=
  match decode w with
  | .ok i => exec i (accept w s)
  | .error _ => .next (raiseError .illegal (accept w s))

/-- A word on the command port: accepted when `cmd_ready` = 1, ignored otherwise (spec/30_encoding.md R73). -/
def presentWord (w : CmdWord) (s : State) : Host.Outcome State Fault Refusal :=
  if cmdReady s then runWord w s else .next s

/-- The state in which `rst_n` strikes a command that started from `s` and would end in `t`
(spec/70_reset_and_hazards.md R221). The state writes of a command come after its line trace: cut inside the trace or right
after its last event (of an empty trace too: accepted, not yet written), they are not made; cut later, they are. How an input
names these instants is the model's choice (notes/assumptions/6.md). -/
def cutState (s t : State) (events micros : Nat) : State :=
  let seg := t.trace.drop s.trace.length
  if seg.length < events then t
  else
    { s with
      trace := s.trace ++ cutTrace events micros seg
      env := s.env.drop (samples (cutTrace events micros seg)).length
      draws := t.draws }

/-- A command during which `rst_n` goes low: no response is produced and the line is released at once (R221). -/
def presentCut (w : CmdWord) (events micros : Nat) (s : State) : Host.Outcome State Fault Refusal :=
  if cmdReady s then
    andThen (runWord w s) fun t => .next (resetLow (cutState (accept w s) t events micros))
  else .next (setRst false s)

/-- One command and its response, as the host makes them: present, then take (spec/30_encoding.md R86). -/
def transact (w : CmdWord) (s : State) : Host.Outcome State Fault Refusal :=
  andThen (runWord w s) fun t => .next (takeResponse t)

/-- The data of the response the host took last. -/
def lastData (s : State) : Word :=
  match s.received.getLast? with
  | some r => r.data
  | none => 0

/-- A field written at the cursor, and the cursor moved by its width (spec/45_host_collaborators.md R194). -/
def saveField (bs : List Byte) (s : State) : State :=
  { s with store := memWrite s.store s.cur bs, cur := s.cur + bs.length }

/-- The four bytes of a word, least significant first (R193). -/
def wordBytes (w : Word) : List Byte := [wordByte w 0, wordByte w 1, wordByte w 2, wordByte w 3]

/-- A word from the first four of a list of bytes, least significant first; a missing byte counts as zero (R195). -/
def wordOfList (bs : List Byte) : Word :=
  wordOfBytes (bs.getD 0 0) (bs.getD 1 0) (bs.getD 2 0) (bs.getD 3 0)

/-- Is there room for the bytes of one call at the cursor (R196)? -/
def storeHasRoom (s : State) : Bool := s.cur + s.cfg.savedBytes ≤ s.cfg.eeSize

/-- `SAVE` (R194): four register reads, then three fields written. -/
def save (s : State) : Host.Outcome State Fault Refusal :=
  if storeHasRoom s then
    andThen (transact (encode .rdregRes) s) fun s1 =>
    andThen (transact (encode .rdregThr) s1) fun s2 =>
    andThen (transact (encode .rdregDevidLo) s2) fun s3 =>
    andThen (transact (encode .rdregDevidHi) s3) fun s4 =>
      .next
        (saveField (wordBytes (lastData s3) ++ wordBytes (lastData s4))
          (saveField (wordBytes (lastData s2)) (saveField [wordByte (lastData s1) 0] s4)))
  else .refused .storeExhausted

/-- `LOAD` (R195): three fields read, then four register writes. -/
def load (s : State) : Host.Outcome State Fault Refusal :=
  if storeHasRoom s then
    let b := memRead s.store s.cur 1
    let f := memRead s.store (s.cur + 1) (s.cfg.flen / 8)
    let d := memRead s.store (s.cur + 1 + s.cfg.flen / 8) s.cfg.devidLen
    andThen (transact (encode (.wrregRes ((b.getD 0 0).setWidth 32)))
      { s with cur := s.cur + s.cfg.savedBytes }) fun s1 =>
    andThen (transact (encode (.wrregThr (wordOfList f))) s1) fun s2 =>
    andThen (transact (encode (.wrregDevidLo (wordOfList d))) s2) fun s3 =>
      transact (encode (.wrregDevidHi (wordOfList (d.drop 4)))) s3
  else .refused .storeExhausted

/-- `READ_F` (R190): one `READ_TEMP`, then the host's arithmetic. -/
def readF (s : State) : Host.Outcome State Fault Refusal :=
  andThen (transact (encode .readTemp) s) fun t => .next { t with fahr := some (readFData (lastData t)) }

/-- A pseudo-instruction of the host: it first takes a response that is out, and it waits while `rst_n` is low
(spec/70_reset_and_hazards.md R222; notes/assumptions/16.md). -/
def runPseudo (a : HostInput) (f : State → Host.Outcome State Fault Refusal) (s : State) :
    Host.Outcome State Fault Refusal :=
  if cmdReady (takeResponse s) then f (takeResponse s) else .next { s with host := a :: s.host }

/-- One input of the host. -/
def runInput (a : HostInput) (s : State) : Host.Outcome State Fault Refusal :=
  match a with
  | .present w => presentWord w s
  | .presentThenReset w events micros => presentCut w events micros s
  | .presentThenClockStop w => if cmdReady s then .fault .clockStopped else presentWord w s
  | .take => .next (takeResponse s)
  | .rst high => .next (setRst high s)
  | .save => runPseudo .save save s
  | .load => runPseudo .load load s
  | .readF => runPseudo .readF readF s

/-- The next input of the host, taken off its list; without one the block is idle, "the pad outputs held as LMODE says"
(spec/60_exceptions.md R211). -/
def hostStep (s : State) : Host.Outcome State Fault Refusal :=
  match s.host with
  | [] => .next s
  | a :: rest => runInput a { s with host := rest }

/-- A state in which the host's next input is this word and the block will accept it: a response that is out has been
taken, and `rst_n` is high. -/
def offerWord (w : CmdWord) (s : State) : State :=
  { takeResponse s with host := .present w :: s.host, seq := .idle, rstN := true }

end Sys2Proof.Machine
end

