-- ==== Sys2Proof/Machine/Step.lean ====
section
/-! DEFINITION. One step of the machine: the next input of the host. The block stores no program (spec/10_state.md R22), so
its next instruction is the next command word the host presents (notes/assumptions/8.md). -/

namespace Sys2Proof.Machine

/-- One step: three outcomes, next, fault, refusal. -/
def step (s : State) : Host.Outcome State Fault Refusal := hostStep s

/-- `s` with the word `w` of `nbits` bits (bits numbered as spec/opcode_table.json numbers them) as the host's next
input. -/
def State.withFetchWord (s : State) (nbits w : Nat) : State :=
  offerWord (BitVec.ofNat 40 (w % 2 ^ nbits)) s

end Sys2Proof.Machine
end

