-- ==== Sys2Proof/Safety.lean ====
section
/-! DEFINITION. What counts as a safe run; and the tables of the whole-machine rules of the spec, in the terms statements
use. -/

namespace Sys2Proof.Machine

/-- A safe step answers a next state: it meets no fault and no refusal. -/
def SafeStep (s : State) : Prop := ∃ t, step s = .next t

/-- `n` safe steps, one after the other. -/
def SafeRun : Nat → State → Prop
  | 0, _ => True
  | n + 1, s => ∃ t, step s = .next t ∧ SafeRun n t

/-- The spec defines this command in this state: all but `POLL_CONV` in IDLE (spec/42_session.md R145). -/
abbrev Defined (i : Instr) (s : State) : Prop := i = .pollConv → s.conv ≠ .idle

/-- What `rst_n` holds while it is low (spec/70_reset_and_hazards.md R220). -/
structure HeldInReset (s : State) : Prop where
  lmode : s.lmode = .rel
  conv : s.conv = .idle
  pres : s.pres = false
  devid : s.devid = Vector.replicate 8 0
  seq : s.seq = .idle
  trace : s.trace = []

/-- What every step keeps, between steps: the store is canonical; the timer is idle; no command is in mid-run; the line mode
is the one the last `Drive` since reset set, REL if there was none; and while `rst_n` is low the reset values stand. -/
structure Inv (s : State) : Prop where
  store : s.store.wf = true
  tmr : s.tmr = 0
  seq : s.seq ≠ .running
  lmode : s.lmode = endMode .rel s.trace
  held : s.rstN = false → HeldInReset s

/-! ## Tables of the spec -/

/-- How many samples a command asks of the environment (spec/30_encoding.md R75). -/
def sampleCount (i : Instr) (c : ConvState) : Nat :=
  match i with
  | .beginSession => 1
  | .startConv => 1
  | .readTemp => 73
  | .pollConv => if c = .converting then 1 else 0
  | .checkAlarm => 1
  | .setRes _ | .setAlarm _ | .paraOff | .paraOn | .rdregStatus | .rdregRes | .rdregThr | .rdregDevidLo
  | .rdregDevidHi | .wrregRes _ | .wrregThr _ | .wrregDevidLo _ | .wrregDevidHi _ => 0

/-- The line mode at the end of a command that started from `m`, with presence sample `p`
(spec/70_reset_and_hazards.md R228). -/
def modeAfter (i : Instr) (p : Bool) (m : LineMode) : LineMode :=
  match i with
  | .beginSession => if p then .rel else .high
  | .startConv | .readTemp | .setAlarm _ | .checkAlarm | .paraOn => .rel
  | .setRes r => if 9 ≤ r.toNat ∧ r.toNat ≤ 12 then .rel else m
  | .paraOff => .low
  | .pollConv | .rdregStatus | .rdregRes | .rdregThr | .rdregDevidLo | .rdregDevidHi | .wrregRes _
  | .wrregThr _ | .wrregDevidLo _ | .wrregDevidHi _ => m

/-- Microseconds of line time of a command (R238), in the parameters: a write slot lasts `T_SLOT + T_REC`, a read slot
`T_LOW + T_RDS + T_RDREM`, a reset `T_RSTL + T_PDS + T_RSTREM`. -/
def lineTime (cfg : Config) (i : Instr) : Nat :=
  let reset := cfg.tRstl + cfg.tPds + cfg.tRstrem
  let write := cfg.tSlot + cfg.tRec
  let read := cfg.tLow + cfg.tRds + cfg.tRdrem
  match i with
  | .beginSession => reset
  | .startConv => reset + 8 * write
  | .readTemp => reset + 8 * write + 72 * read
  | .setRes r => if 9 ≤ r.toNat ∧ r.toNat ≤ 12 then 8 * write else 0
  | .setAlarm _ => 16 * write
  | .checkAlarm => cfg.tAll + cfg.tAlh + cfg.tAls
  | .pollConv | .paraOff | .paraOn | .rdregStatus | .rdregRes | .rdregThr | .rdregDevidLo
  | .rdregDevidHi | .wrregRes _ | .wrregThr _ | .wrregDevidLo _ | .wrregDevidHi _ => 0

/-- A command that returns a boolean (spec/30_encoding.md R74). -/
def returnsBool : Instr → Bool
  | .pollConv | .checkAlarm => true
  | .beginSession | .startConv | .readTemp | .setRes _ | .setAlarm _ | .paraOff | .paraOn | .rdregStatus
  | .rdregRes | .rdregThr | .rdregDevidLo | .rdregDevidHi | .wrregRes _ | .wrregThr _ | .wrregDevidLo _
  | .wrregDevidHi _ => false

/-- A command that returns nothing (R74). -/
def returnsNothing : Instr → Bool
  | .beginSession | .startConv | .setRes _ | .setAlarm _ | .paraOff | .paraOn | .wrregRes _ | .wrregThr _
  | .wrregDevidLo _ | .wrregDevidHi _ => true
  | .pollConv | .checkAlarm | .readTemp | .rdregStatus | .rdregRes | .rdregThr | .rdregDevidLo
  | .rdregDevidHi => false

/-- The ILLEGAL words as spec/30_encoding.md R79 lists them, by opcode and operand. -/
def illegalByList (op : Nat) (arg : Word) : Prop :=
  op = 0x00 ∨ (0x0A ≤ op ∧ op ≤ 0x0F) ∨ (0x15 ≤ op ∧ op ≤ 0x1F) ∨ op = 0x20 ∨ (0x25 ≤ op ∧ op ≤ 0x2F)
    ∨ 0x30 ≤ op
    ∨ (((0x01 ≤ op ∧ op ≤ 0x04) ∨ (0x07 ≤ op ∧ op ≤ 0x09) ∨ (0x10 ≤ op ∧ op ≤ 0x14)) ∧ arg ≠ 0)
    ∨ (op = 0x21 ∧ arg.extractLsb' 8 24 ≠ 0)

/-- `n` polls one after the other (spec/30_encoding.md R84). -/
def pollTimes : Nat → State → Host.Outcome State Fault Refusal
  | 0, s => .next s
  | n + 1, s => andThen (exec .pollConv s) (pollTimes n)

end Sys2Proof.Machine
end

