-- ==== Sys2Proof/Certificates/Slice0/Obligations.lean ====
section
/-! DEFINITION. The statements for the provers, in the order of OBLIGATIONS.json. Where a statement leaves `bitcnt`,
`bytecnt` or `acc` under an existential, the spec calls that register dead between commands (spec/10_state.md R33). -/

open Sys2Proof Sys2Proof.Machine

/-! ## Encoding -/

/-- Decode of encode is the command itself, for every well-formed command and every operand (spec/30_encoding.md R72, R82,
R85). -/
def Obligations.DecodeOfEncode : Prop :=
  ∀ i : Instr, i.WellFormed → decode (encode i) = .ok i

/-- The other direction: a word that decodes to a command is that command's word, and the command is well formed. -/
def Obligations.EncodeOfDecode : Prop :=
  ∀ (w : CmdWord) (i : Instr), decode w = .ok i → i.WellFormed ∧ encode i = w

/-- spec/30_encoding.md R77: a word selects the row of the opcode map whose `match` it equals under the row's `mask`; no two
rows match one word; a word that no row matches is ILLEGAL. -/
def Obligations.DecodeSelectsTheMatchingRow : Prop :=
  (∀ (w : CmdWord) (i : Instr),
    decode w = .ok i ↔ (w &&& i.rowMask = i.rowMatch ∧ argField w = i.operand)) ∧
  (∀ (w : CmdWord) (i j : Instr),
    w &&& i.rowMask = i.rowMatch → w &&& j.rowMask = j.rowMatch → i.mnemonic = j.mnemonic) ∧
  (∀ w : CmdWord, (∀ i : Instr, w &&& i.rowMask ≠ i.rowMatch) → ∃ e, decode w = .error e)

/-- spec/30_encoding.md R79: the ILLEGAL words are those of the list, the all-zero and the all-ones word among them; one is
accepted like any other word, answers code 1 with data 0, and changes nothing else; what the acceptance leaves in `OPR`,
`ARGR` (dead between commands) is not said. -/
def Obligations.IllegalWordsAreThoseListed : Prop :=
  (∀ w : CmdWord, (∃ e, decode w = .error e) ↔ illegalByList (opField w).toNat (argField w)) ∧
  (∃ e, decode 0x0000000000 = .error e) ∧ (∃ e, decode 0xFFFFFFFFFF = .error e) ∧
  (∀ (s : State) (w : CmdWord) (rest : List HostInput),
    s.host = .present w :: rest → cmdReady s = true → illegalByList (opField w).toNat (argField w) →
    ∃ (o : Byte) (a : Word),
      step s = .next { s with host := rest, opr := o, argr := a, seq := .responding ⟨.illegal, 0⟩ })

/-- Command words written out from spec/30_encoding.md R77 and the examples of the command rules decode to the commands they
stand for. -/
def Obligations.WordsOfTheSpecDecode : Prop :=
  decode 0x0100000000 = .ok .beginSession ∧
  decode 0x0400000000 = .ok .readTemp ∧
  decode 0x050000000B = .ok (.setRes 11) ∧
  decode 0x0500000109 = .ok (.setRes 0x109) ∧
  decode 0x0641C80000 = .ok (.setAlarm 0x41C80000) ∧
  decode 0x0700000000 = .ok .checkAlarm ∧
  decode 0x0800000000 = .ok .paraOff ∧
  decode 0x1200000000 = .ok .rdregThr ∧
  decode 0x210000000A = .ok (.wrregRes 0x0A) ∧
  decode 0x22C1280000 = .ok (.wrregThr 0xC1280000) ∧
  decode 0x2300A1B228 = .ok (.wrregDevidLo 0x00A1B228)

/-! ## The command port and the host -/

/-- A step runs the decoded command: the host's next input is a word that decodes to `i` and the block is ready, so the step
takes the input off the host's list, latches the word (spec/30_encoding.md R73) and is `exec` of `i`. -/
def Obligations.StepRunsTheDecodedCommand : Prop :=
  ∀ (s : State) (w : CmdWord) (rest : List HostInput) (i : Instr),
    s.host = .present w :: rest → cmdReady s = true → decode w = .ok i →
    step s = exec i { s with host := rest, opr := opField w, argr := argField w, seq := .running }

/-- `withFetchWord` puts a word where the very next step runs it. How a word comes to the block is the model's choice
(notes/assumptions/8.md): a response that is out has been taken, `rst_n` is high, and the host presents the word; nothing else
differs from the given state. -/
def Obligations.WithFetchWordRunsTheCommand : Prop :=
  ∀ (s : State) (w : CmdWord) (i : Instr), decode w = .ok i →
    step (s.withFetchWord 40 w.toNat) = exec i
      { s with
        opr := opField w
        argr := argField w
        seq := .running
        rstN := true
        received := s.received ++ (rspOut s).toList }

/-- While `cmd_ready` = 0 the block ignores the command port (spec/30_encoding.md R73); the host takes a response that is
out, and the block is ready again unless it is held in reset (R74); a host with no input leaves the block as it is
(spec/60_exceptions.md R211). -/
def Obligations.Handshake : Prop :=
  (∀ (s : State) (w : CmdWord) (rest : List HostInput),
    s.host = .present w :: rest → cmdReady s = false → step s = .next { s with host := rest }) ∧
  (∀ (s : State) (r : Response) (rest : List HostInput),
    s.host = .take :: rest → s.seq = .responding r →
    ∃ t, step s = .next t ∧ t = { s with host := rest, seq := .idle, received := s.received ++ [r] } ∧
      cmdReady t = s.rstN ∧ busy t = !s.rstN ∧ rspOut t = none) ∧
  (∀ s : State, s.host = [] → step s = .next s)

/-- spec/30_encoding.md R74: every command answers exactly one response, which the host then sees; code 1 carries data 0; an
OK of a command that returns nothing carries 0; an OK of `POLL_CONV` or `CHECK_ALARM` is 0 or 1; the response word has the
code in bits 33:32 and the data in bits 31:0, and the code is never 3. A `POLL_CONV` in IDLE is left out: the model faults
there (spec/42_session.md R145), so code 2 is never seen. -/
def Obligations.EveryCommandAnswersOnce : Prop :=
  (∀ (i : Instr) (s : State), Defined i s → ∃ (t : State) (r : Response),
    exec i s = .next t ∧ t.seq = .responding r ∧ t.received = s.received ∧ cmdReady t = false ∧
    (r.code ≠ .ok → r.data = 0) ∧
    (r.code = .ok → returnsNothing i = true → r.data = 0) ∧
    (r.code = .ok → returnsBool i = true → r.data = 0 ∨ r.data = 1) ∧
    (r.code = .illegal → ¬ i.WellFormed) ∧ r.code ≠ .undefSeq) ∧
  (∀ r : Response,
    (rspWord r).extractLsb' 32 2 = codeBits r.code ∧ (rspWord r).extractLsb' 0 32 = r.data ∧
    codeBits r.code ≠ 3 ∧
    codeBits .ok = 0 ∧ codeBits .illegal = 1 ∧ codeBits .undefSeq = 2)

/-! ## The line -/

/-- spec/30_encoding.md R71: the pads in each of the three line modes. -/
def Obligations.PadsAreAFunctionOfTheLineMode : Prop :=
  ∀ s : State,
    (s.lmode = .rel → pads s = { dqO := false, dqOe := false, dqPu := true }) ∧
    (s.lmode = .low → pads s = { dqO := false, dqOe := true, dqPu := false }) ∧
    (s.lmode = .high → pads s = { dqO := true, dqOe := true, dqPu := false })

/-- spec/40_bit_signaling.md R103: what a sample reads in each line mode for the environment's answer `e` (the next one it
was given, if any), with the value under contention left free; the line mode is not changed. -/
def Obligations.SampleReadsTheLevel : Prop :=
  (∀ s : State,
    let e := envAnswer s
    ∃ v c : Bool,
      sample s =
        { s with smp := v, trace := s.trace ++ [.sample v], env := s.env.tail, draws := s.draws + 1 } ∧
      (s.lmode = .rel → v = e) ∧ (s.lmode = .low → v = false) ∧
      (s.lmode = .high → v = if e then true else c)) ∧
  (∀ (s : State) (e : Bool) (es : List Bool), s.env = e :: es → envAnswer s = e)

/-- spec/40_bit_signaling.md R106: `presenceReset()`, its state writes and its trace `RST[s]`; at the defaults it lasts
960 µs whatever the sample is. -/
def Obligations.PresenceReset : Prop :=
  (∀ s : State,
    let p := presenceAnswer s
    presenceReset s =
      { s with
        lmode := if p then .rel else .high
        pres := !p
        smp := p
        tmr := 0
        trace := s.trace ++ traceRST s.cfg p
        env := s.env.tail
        draws := s.draws + 1 }) ∧
  (∀ s : State, ∀ e es, s.env = e :: es → presenceAnswer s = e) ∧
  (∀ p : Bool, SameTrace (traceRST Config.default p)
    ([.drive .low, .wait 480, .drive .rel, .wait 60, .sample p] ++
      (if p then [.wait 420] else [.drive .high, .wait 420]))) ∧
  (∀ p : Bool, duration (traceRST Config.default p) = 960)

/-- spec/40_bit_signaling.md R108 and R110: the write slot and the read slot from any line mode, their traces `W[b]` and
`R[s]`, both ending in REL; at the defaults 70 µs and 60 µs. -/
def Obligations.BitSlots : Prop :=
  (∀ (s : State) (b : Bool),
    writeBitSlot b s = { s with lmode := .rel, tmr := 0, trace := s.trace ++ traceW s.cfg b }) ∧
  (∀ s : State,
    let e := readAnswer s
    readBitSlot s =
      { s with
        lmode := .rel
        smp := e
        tmr := 0
        trace := s.trace ++ traceR s.cfg e
        env := s.env.tail
        draws := s.draws + 1 }) ∧
  (∀ s : State, ∀ e es, s.env = e :: es → readAnswer s = e) ∧
  SameTrace (traceW Config.default true) [.drive .low, .wait 2, .drive .rel, .wait 68] ∧
  SameTrace (traceW Config.default false) [.drive .low, .wait 60, .drive .rel, .wait 10] ∧
  (∀ e : Bool, SameTrace (traceR Config.default e)
    [.drive .low, .wait 2, .drive .rel, .wait 15, .sample e, .wait 43]) ∧
  (∀ b : Bool, duration (traceW Config.default b) = 70 ∧ duration (traceR Config.default b) = 60)

/-! ## The byte serializer -/

/-- spec/41_byte_framing.md R130: `writeByte(v)` is eight write slots, bit 0 first, nothing else, no sample; the bits have
left the low half of `SHREG` with zeros behind them. -/
def Obligations.WriteByteSendsEightSlots : Prop :=
  (∀ (s : State) (v : Byte), ∃ bc : BitVec 5,
    writeByte v s =
      { s with
        lmode := .rel
        tmr := 0
        shreg := (s.shreg.extractLsb' 8 8 ++ 0#8 : BitVec (8 + 8))
        bitcnt := bc
        trace := s.trace ++ (byteBits v).flatMap (traceW s.cfg) }) ∧
  (∀ v : Byte, duration ((byteBits v).flatMap (traceW Config.default)) = 560)

/-- spec/41_byte_framing.md R131: `readByte()` is eight read slots; the trace shows the bits of the byte returned, bit 0
first; eight samples are asked for. -/
def Obligations.ReadByteAssemblesEightSamples : Prop :=
  (∀ s : State, ∃ (v : Byte) (bc : BitVec 5),
    readByte s =
      { s with
        lmode := .rel
        smp := v.getLsbD 7
        tmr := 0
        acc := v
        bitcnt := bc
        trace := s.trace ++ (byteBits v).flatMap (traceR s.cfg)
        env := s.env.drop 8
        draws := s.draws + 8 }) ∧
  (∀ v : Byte, duration ((byteBits v).flatMap (traceR Config.default)) = 480)

/-- spec/41_byte_framing.md R132 and spec/20_memory.md R53 (a): `writeBits16(v)` is sixteen write slots, bit 0 first, and its
trace is that of `writeByte(v[7:0])` followed by `writeByte(v[15:8])`. -/
def Obligations.WriteBits16IsTwoBytes : Prop :=
  (∀ (s : State) (v : BitVec 16), ∃ bc : BitVec 5,
    writeBits16 v s =
      { s with
        lmode := .rel
        tmr := 0
        shreg := 0
        bitcnt := bc
        trace := s.trace ++ ((List.range 16).map v.getLsbD).flatMap (traceW s.cfg) } ∧
    (writeBits16 v s).trace =
      (writeByte (v.extractLsb' 8 8) (writeByte (v.extractLsb' 0 8) s)).trace) ∧
  (∀ v : BitVec 16, duration (((List.range 16).map v.getLsbD).flatMap (traceW Config.default)) = 1120)

/-- spec/41_byte_framing.md R134: if the environment answers the eight samples of a `readByte` with the bits a
`writeByte(v)` sends, in slot order, the byte returned is `v`. -/
def Obligations.ReadByteInvertsWriteByte : Prop :=
  ∀ (s u : State) (v : Byte) (bits rest : List Bool),
    (writeByte v u).trace = u.trace ++ bits.flatMap (traceW u.cfg) → bits.length = 8 →
    s.env = bits ++ rest →
    (readByte s).acc = v ∧ (readByte s).env = rest

/-! ## Session commands -/

/-- spec/42_session.md R140: `BEGIN`, its word, its whole effect and its frame, from any state; one sample; 960 µs at the
defaults. -/
def Obligations.BeginResult : Prop :=
  encode .beginSession = 0x0100000000 ∧
  (∀ s : State,
    let p := presenceAnswer s
    exec .beginSession s = .next
      { s with
        lmode := if p then .rel else .high
        pres := !p
        smp := p
        tmr := 0
        trace := s.trace ++ traceRST s.cfg p
        env := s.env.tail
        draws := s.draws + 1
        seq := .responding ⟨.ok, 0⟩ }) ∧
  (∀ p : Bool, duration (traceRST Config.default p) = 960 ∧ samples (traceRST Config.default p) = [p])

/-- spec/42_session.md R142: `START_CONV`, its word, its whole effect and its frame, from any state. -/
def Obligations.StartConvResult : Prop :=
  encode .startConv = 0x0200000000 ∧
  (∀ s : State, ∃ bc : BitVec 5,
    let p := presenceAnswer s
    exec .startConv s = .next
      { s with
        lmode := .rel
        conv := .converting
        pres := !p
        smp := p
        tmr := 0
        shreg := (s.shreg.extractLsb' 8 8 ++ 0#8 : BitVec (8 + 8))
        bitcnt := bc
        trace := s.trace ++ traceRST s.cfg p ++ (byteBits s.cfg.cmdConvertT).flatMap (traceW s.cfg)
        env := s.env.tail
        draws := s.draws + 1
        seq := .responding ⟨.ok, 0⟩ }) ∧
  (byteBits Config.default.cmdConvertT = [false, false, true, false, false, false, true, false]) ∧
  (∀ p : Bool, duration (traceRST Config.default p ++
    (byteBits Config.default.cmdConvertT).flatMap (traceW Config.default)) = 1520)

/-- spec/42_session.md R144, the running conversion: one sample in the mode the line is in, no drive and no wait; a high
sample latches COMPLETE and answers 1, a low one changes nothing more and answers 0. -/
def Obligations.PollWhileConverting : Prop :=
  encode .pollConv = 0x0300000000 ∧
  (∀ s : State, s.conv = .converting →
    let v := sampleValue s
    exec .pollConv s = .next
      { s with
        conv := if v then .complete else .converting
        smp := v
        trace := s.trace ++ [.sample v]
        env := s.env.tail
        draws := s.draws + 1
        seq := .responding ⟨.ok, if v then 1 else 0⟩ }) ∧
  (∀ s : State, ∀ e es, s.env = e :: es →
    (s.lmode = .rel → sampleValue s = e) ∧ (s.lmode = .low → sampleValue s = false) ∧
    (s.lmode = .high → e = true → sampleValue s = true))

/-- spec/42_session.md R144 (a), idempotence: once COMPLETE, a poll answers 1 with no sample and no line event. -/
def Obligations.PollAfterComplete : Prop :=
  ∀ s : State, s.conv = .complete → exec .pollConv s = .next { s with seq := .responding ⟨.ok, 1⟩ }

/-- A poll in IDLE (spec/42_session.md R145, spec/60_exceptions.md R202, R212): "a model treats the case as a fault". The
command faults whatever else the state is, and so does the step in which a ready block is presented its word. -/
def Obligations.PollInIdleIsAFault : Prop :=
  (∀ s : State, s.conv = .idle → exec .pollConv s = .fault .undefSeq) ∧
  (∀ (s : State) (rest : List HostInput),
    s.host = .present 0x0300000000 :: rest → cmdReady s = true → s.conv = .idle →
    step s = .fault .undefSeq)

/-- spec/42_session.md R149: the conversion state machine. The row of the poll in IDLE is the fault that R145 asks of a
model. -/
def Obligations.ConversionStateMachine : Prop :=
  (∀ s : State, ∃ t, exec .startConv s = .next t ∧ t.conv = .converting ∧ rspOut t = some ⟨.ok, 0⟩ ∧
    t.env = s.env.drop 1) ∧
  (∀ s : State, s.conv = .idle → exec .pollConv s = .fault .undefSeq) ∧
  (∀ s : State, s.conv = .converting → ∃ t, exec .pollConv s = .next t ∧ t.env = s.env.drop 1 ∧
    ((t.smp = false ∧ t.conv = .converting ∧ rspOut t = some ⟨.ok, 0⟩) ∨
     (t.smp = true ∧ t.conv = .complete ∧ rspOut t = some ⟨.ok, 1⟩))) ∧
  (∀ s : State, s.conv = .complete →
    ∃ t, exec .pollConv s = .next t ∧ t.conv = .complete ∧ rspOut t = some ⟨.ok, 1⟩ ∧ t.env = s.env) ∧
  (∀ (i : Instr) (s : State), i ≠ .startConv → i ≠ .pollConv →
    ∃ t, exec i s = .next t ∧ t.conv = s.conv) ∧
  (∀ (s : State) (rest : List HostInput), s.host = .rst false :: rest → s.rstN = true →
    ∃ t, step s = .next t ∧ t.conv = .idle ∧ t.env = s.env ∧ rspOut t = none)

/-- spec/42_session.md R146: `READ_TEMP`, its word, its whole effect and its frame, from any state. The trace ties the nine
bytes of `SP` to the samples; the response depends on them. -/
def Obligations.ReadTempResult : Prop :=
  encode .readTemp = 0x0400000000 ∧
  (∀ s : State, ∃ (sp : Vector Byte 9) (acc : Byte) (bc : BitVec 5) (yc : BitVec 4),
    let p := presenceAnswer s
    exec .readTemp s = .next
      { s with
        lmode := .rel
        pres := !p
        smp := sp[8].getLsbD 7
        tmr := 0
        sp := sp
        shreg := (s.shreg.extractLsb' 8 8 ++ 0#8 : BitVec (8 + 8))
        acc := acc
        bitcnt := bc
        bytecnt := yc
        trace := s.trace ++ traceRST s.cfg p ++ (byteBits s.cfg.cmdReadSp).flatMap (traceW s.cfg) ++
          (sp.toList.flatMap byteBits).flatMap (traceR s.cfg)
        env := s.env.drop 73
        draws := s.draws + 73
        seq := .responding ⟨.ok, if sp[0] = 0x28 then decodeTemp s.cfg sp else 0x7FC00000⟩ }) ∧
  (byteBits Config.default.cmdReadSp = [false, true, true, true, true, true, false, true]) ∧
  (∀ (p : Bool) (sp : Vector Byte 9),
    let tr := traceRST Config.default p ++
      (byteBits Config.default.cmdReadSp).flatMap (traceW Config.default) ++
      (sp.toList.flatMap byteBits).flatMap (traceR Config.default)
    duration tr = 5840 ∧ (samples tr).length = 73)

/-- If the environment answers the presence sample with `p` and then sends nine bytes, bit 0 first, those bytes are in `SP`
and the answer is the one they give (spec/42_session.md R146; spec/20_memory.md R52). -/
def Obligations.ReadTempOfASensorThatSends : Prop :=
  ∀ (s : State) (p : Bool) (vs : Vector Byte 9) (rest : List Bool),
    s.env = p :: (vs.toList.flatMap byteBits ++ rest) →
    ∃ t, exec .readTemp s = .next t ∧ t.sp = vs ∧ t.pres = !p ∧ t.env = rest ∧ t.conv = s.conv ∧
      rspOut t = some ⟨.ok, if vs[0] = 0x28 then decodeTemp s.cfg vs else 0x7FC00000⟩

/-- spec/42_session.md R147: the word is made of the two indexed bytes; `t` is its signed value over 2^TEMP_SHIFT rounded
toward minus infinity; the result is the binary32 pattern of exactly `t`/16, +0.0 for 0, never −0.0; with the default shift
−2048 ≤ `t` ≤ 2047. -/
def Obligations.DecodeTempIsExact : Prop :=
  ∀ (cfg : Config) (sp : Vector Byte 9),
    let word := tempWord cfg sp
    let t := tempInt cfg sp
    word.toNat = 256 * sp[cfg.thiIdx].toNat + sp[cfg.tloIdx].toNat ∧
    t * 2 ^ (cfg.tempShift : Nat) ≤ word.toInt ∧ word.toInt < (t + 1) * 2 ^ (cfg.tempShift : Nat) ∧
    isFinite (decodeTemp cfg sp) = true ∧
    f32Scaled (decodeTemp cfg sp) = t * 2 ^ 145 ∧
    (t = 0 → decodeTemp cfg sp = 0x00000000) ∧
    decodeTemp cfg sp ≠ 0x80000000 ∧
    (cfg.tempShift = 4 → -2048 ≤ t ∧ t ≤ 2047)

/-- spec/42_session.md R148: the response of `READ_TEMP` is a function of the nine received bytes only; it does not depend on
`RES`, `THR`, `DEVID`, `CONV` or `PRES`. -/
def Obligations.ReadTempDependsOnTheBytesOnly : Prop :=
  (∀ (s : State) (res : Byte) (thr : Word) (devid : Vector Byte 8) (conv : ConvState) (pres : Bool),
    ∃ t u, exec .readTemp s = .next t ∧
      exec .readTemp { s with res := res, thr := thr, devid := devid, conv := conv, pres := pres } = .next u ∧
      rspOut u = rspOut t ∧ u.sp = t.sp ∧ u.trace = t.trace) ∧
  (∀ s s' t t' : State, exec .readTemp s = .next t → exec .readTemp s' = .next t' → s.cfg = s'.cfg →
    t.sp = t'.sp → rspOut t = rspOut t')

/-! ## Configuration, alarm and power commands -/

/-- spec/43_config_alarm_power.md R160: `SET_RES` with an operand of 9 to 12 sends eight slots, bit 0 of the pattern
`((r - 9) << 5)[7:0]` first, and then stores `r`; with any other operand nothing at all happens; the answer is the same. -/
def Obligations.SetResResult : Prop :=
  (∀ r : Word, encode (.setRes r) = (0x05#8 ++ r : CmdWord)) ∧
  (∀ (s : State) (r : Word), 9 ≤ r.toNat → r.toNat ≤ 12 → ∃ bc : BitVec 5,
    exec (.setRes r) s = .next
      { s with
        res := BitVec.ofNat 8 r.toNat
        lmode := .rel
        tmr := 0
        shreg := (s.shreg.extractLsb' 8 8 ++ 0#8 : BitVec (8 + 8))
        bitcnt := bc
        trace := s.trace ++ (byteBits (BitVec.ofNat 8 ((r.toNat - 9) * 32))).flatMap (traceW s.cfg)
        seq := .responding ⟨.ok, 0⟩ }) ∧
  (∀ (s : State) (r : Word), r.toNat < 9 ∨ 12 < r.toNat →
    exec (.setRes r) s = .next { s with seq := .responding ⟨.ok, 0⟩ })

/-- spec/43_config_alarm_power.md R161: the four patterns and their slots. -/
def Obligations.TheFourResolutionPatterns : Prop :=
  (∀ cfg : Config,
    resPattern cfg 9 = 0x00 ∧ resPattern cfg 10 = 0x20 ∧ resPattern cfg 11 = 0x40 ∧ resPattern cfg 12 = 0x60 ∧
    byteBits (resPattern cfg 9) = [false, false, false, false, false, false, false, false] ∧
    byteBits (resPattern cfg 10) = [false, false, false, false, false, true, false, false] ∧
    byteBits (resPattern cfg 11) = [false, false, false, false, false, false, true, false] ∧
    byteBits (resPattern cfg 12) = [false, false, false, false, false, true, true, false]) ∧
  ∀ s : State, ∀ r : Word, 9 ≤ r.toNat → r.toNat ≤ 12 → ∃ t, exec (.setRes r) s = .next t ∧
    t.trace = s.trace ++ (byteBits (resPattern s.cfg r)).flatMap (traceW s.cfg)

/-- spec/43_config_alarm_power.md R163: `SET_ALARM` with any operand sends the sixteen bits of `enc16(v)`, bit 0 first, and
then stores the operand unchanged; its whole effect and its frame. `x` is the free value that `enc16` takes outside its
domain. -/
def Obligations.SetAlarmResult : Prop :=
  (∀ v : Word, encode (.setAlarm v) = (0x06#8 ++ v : CmdWord)) ∧
  (∀ (s : State) (v : Word), ∃ (bc : BitVec 5) (x : BitVec 16),
    exec (.setAlarm v) s = .next
      { s with
        thr := v
        lmode := .rel
        tmr := 0
        shreg := 0
        bitcnt := bc
        trace := s.trace ++ ((List.range 16).map (enc16 v x).getLsbD).flatMap (traceW s.cfg)
        draws := s.draws + 1
        seq := .responding ⟨.ok, 0⟩ })

/-- spec/43_config_alarm_power.md R164: for a finite `v`, `n` is the nearest integer to 16 × `real(v)` (a real value is its
scaled value times 2^-149), a tie going to the larger magnitude; it fits 16 bits exactly when −2048.03125 < `real(v)` <
2047.96875; and then `enc16(v)` is its two's complement pattern, whatever the free value; both zeros give 0. -/
def Obligations.AlarmEncodingRoundsToNearest : Prop :=
  (∀ (v : Word) (x : BitVec 16), isFinite v = true →
    let n := alarmInt v
    2 * (n * 2 ^ 145 - f32Scaled v).natAbs ≤ 2 ^ 145 ∧
    (2 * (n * 2 ^ 145 - f32Scaled v).natAbs = 2 ^ 145 → (f32Scaled v).natAbs < (n * 2 ^ 145).natAbs) ∧
    ((-32768 ≤ n ∧ n ≤ 32767) ↔ (-65537 * 2 ^ 144 < f32Scaled v ∧ f32Scaled v < 65535 * 2 ^ 144)) ∧
    (-32768 ≤ n → n ≤ 32767 → (enc16 v x).toInt = n)) ∧
  (∀ x : BitVec 16, enc16 0x00000000 x = 0x0000 ∧ enc16 0x80000000 x = 0x0000)

/-- spec/43_config_alarm_power.md R165: outside that domain (`n` does not fit, an infinity, a not-a-number) the 16 bits are a
free value, any value at all; still exactly 16 slots are sent, for whatever the free value is, and `THR` receives `v`. -/
def Obligations.AlarmEncodingOutOfDomainIsFree : Prop :=
  ∀ v : Word, (isFinite v = false ∨ alarmInt v < -32768 ∨ 32767 < alarmInt v) →
    (∀ x : BitVec 16, enc16 v x = x) ∧
    (∀ s : State, ∃ (t : State) (bits : List Bool), exec (.setAlarm v) s = .next t ∧ t.thr = v ∧
      bits.length = 16 ∧ t.trace = s.trace ++ bits.flatMap (traceW s.cfg) ∧ rspOut t = some ⟨.ok, 0⟩)

/-- spec/43_config_alarm_power.md R167: `CHECK_ALARM`, its word, its trace with the hold in any mode, its result (a low sample
is an active alarm) and its frame: `PRES` and `CONV` are not written. -/
def Obligations.CheckAlarmResult : Prop :=
  encode .checkAlarm = 0x0700000000 ∧
  (∀ s : State,
    let e := alarmAnswer s
    exec .checkAlarm s = .next
      { s with
        lmode := .rel
        smp := e
        tmr := 0
        trace := s.trace ++
          [.drive .low, .wait s.cfg.tAll, .drive .rel, .drive s.cfg.alHoldMode, .wait s.cfg.tAlh,
            .drive .rel, .wait s.cfg.tAls, .sample e]
        env := s.env.tail
        draws := s.draws + 1
        seq := .responding ⟨.ok, if e then 0 else 1⟩ }) ∧
  (∀ s : State, ∀ e es, s.env = e :: es → alarmAnswer s = e) ∧
  Config.default.alHoldMode = .low ∧
  Config.default.tAll = 480 ∧ Config.default.tAlh = 2 ∧ Config.default.tAls = 15 ∧
  duration (traceAlarmOpen Config.default) = 497

/-- spec/43_config_alarm_power.md R170, R171: `PARA_OFF` drives low and `PARA_ON` releases; the event is recorded even when
the line is in that mode; nothing else changes. -/
def Obligations.ParasiticPowerResult : Prop :=
  encode .paraOff = 0x0800000000 ∧ encode .paraOn = 0x0900000000 ∧
  (∀ s : State,
    exec .paraOff s = .next
      { s with lmode := .low, trace := s.trace ++ [.drive .low], seq := .responding ⟨.ok, 0⟩ } ∧
    exec .paraOn s = .next
      { s with lmode := .rel, trace := s.trace ++ [.drive .rel], seq := .responding ⟨.ok, 0⟩ })

/-! ## Register commands -/

/-- spec/44_register_access.md R180 and spec/10_state.md R27: `RDREG.STATUS` answers the line mode in bits 1:0, the conversion
state in bits 3:2, `PRES` in bit 4 and zeros above, with no code 3; it changes nothing. -/
def Obligations.RdregStatusResult : Prop :=
  encode .rdregStatus = 0x1000000000 ∧
  (∀ s : State, ∃ d : Word,
    exec .rdregStatus s = .next { s with seq := .responding ⟨.ok, d⟩ } ∧
    d.extractLsb' 0 2 = (match s.lmode with | .rel => 0#2 | .low => 1#2 | .high => 2#2) ∧
    d.extractLsb' 2 2 = (match s.conv with | .idle => 0#2 | .converting => 1#2 | .complete => 2#2) ∧
    d.getLsbD 4 = s.pres ∧ d.extractLsb' 5 27 = 0#27 ∧
    d.extractLsb' 0 2 ≠ 3 ∧ d.extractLsb' 2 2 ≠ 3) ∧
  statusWord State.reset = 0x00000000

/-- spec/44_register_access.md R181: the reads of the other registers; byte 0 of `DEVID` is the low byte of `DEVID_LO`, bytes
above `RES` read as zero, `THR` bit for bit; they change nothing. -/
def Obligations.RdregResult : Prop :=
  encode .rdregRes = 0x1100000000 ∧ encode .rdregThr = 0x1200000000 ∧
  encode .rdregDevidLo = 0x1300000000 ∧ encode .rdregDevidHi = 0x1400000000 ∧
  (∀ s : State,
    exec .rdregRes s = .next { s with seq := .responding ⟨.ok, (0#24 ++ s.res : BitVec (24 + 8))⟩ } ∧
    exec .rdregThr s = .next { s with seq := .responding ⟨.ok, s.thr⟩ } ∧
    exec .rdregDevidLo s = .next
      { s with seq := .responding ⟨.ok, s.devid[3] ++ s.devid[2] ++ s.devid[1] ++ s.devid[0]⟩ } ∧
    exec .rdregDevidHi s = .next
      { s with seq := .responding ⟨.ok, s.devid[7] ++ s.devid[6] ++ s.devid[5] ++ s.devid[4]⟩ }) ∧
  (exec .rdregDevidLo State.reset = .next { State.reset with seq := .responding ⟨.ok, 0⟩ } ∧
    exec .rdregDevidHi State.reset = .next { State.reset with seq := .responding ⟨.ok, 0⟩ })

/-- spec/44_register_access.md R183, R184: `WRREG.RES` stores any byte unchecked, `WRREG.THR` any pattern; nothing is
transmitted and nothing else changes; the byte or pattern reads back. -/
def Obligations.WrregResAndThrResult : Prop :=
  (∀ x : Byte, encode (.wrregRes (x.setWidth 32)) = (0x21000000#32 ++ x : BitVec (32 + 8))) ∧
  (∀ x : Word, encode (.wrregThr x) = (0x22#8 ++ x : CmdWord)) ∧
  (∀ (s : State) (x : Byte),
    exec (.wrregRes (x.setWidth 32)) s = .next { s with res := x, seq := .responding ⟨.ok, 0⟩ }) ∧
  (∀ (s : State) (x : Word),
    exec (.wrregThr x) s = .next { s with thr := x, seq := .responding ⟨.ok, 0⟩ }) ∧
  (∀ (s t : State) (x : Word), exec (.wrregThr x) s = .next t →
    ∃ u, exec .rdregThr t = .next u ∧ rspOut u = some ⟨.ok, x⟩)

/-- `WRREG.RES` over its whole operand: with bits 31:8 zero it stores the low byte (spec/44_register_access.md R183); with a
bit above bit 7 it is no command of the encoding, and the model answers it as the ILLEGAL word it would be (R186; the model's
choice, notes/assumptions/19.md). -/
def Obligations.WrregResOverEveryOperand : Prop :=
  (∀ (s : State) (x : Word), x.toNat < 256 →
    exec (.wrregRes x) s = .next { s with res := BitVec.ofNat 8 x.toNat, seq := .responding ⟨.ok, 0⟩ }) ∧
  (∀ (s : State) (x : Word), 256 ≤ x.toNat →
    exec (.wrregRes x) s = .next { s with seq := .responding ⟨.illegal, 0⟩ })

/-- spec/44_register_access.md R185: each `WRREG.DEVID` command writes its four bytes of `DEVID`, the low byte of the operand
to the lowest index, keeps the other four, and changes nothing else. -/
def Obligations.WrregDevidResult : Prop :=
  (∀ x : Word, encode (.wrregDevidLo x) = (0x23#8 ++ x : CmdWord)) ∧
  (∀ x : Word, encode (.wrregDevidHi x) = (0x24#8 ++ x : CmdWord)) ∧
  (∀ (s : State) (x : Word), ∃ d : Vector Byte 8,
    exec (.wrregDevidLo x) s = .next { s with devid := d, seq := .responding ⟨.ok, 0⟩ } ∧
    d[0].toNat = x.toNat % 256 ∧ d[1].toNat = x.toNat / 256 % 256 ∧
    d[2].toNat = x.toNat / 65536 % 256 ∧ d[3].toNat = x.toNat / 16777216 ∧
    d[4] = s.devid[4] ∧ d[5] = s.devid[5] ∧ d[6] = s.devid[6] ∧ d[7] = s.devid[7]) ∧
  (∀ (s : State) (x : Word), ∃ d : Vector Byte 8,
    exec (.wrregDevidHi x) s = .next { s with devid := d, seq := .responding ⟨.ok, 0⟩ } ∧
    d[4].toNat = x.toNat % 256 ∧ d[5].toNat = x.toNat / 256 % 256 ∧
    d[6].toNat = x.toNat / 65536 % 256 ∧ d[7].toNat = x.toNat / 16777216 ∧
    d[0] = s.devid[0] ∧ d[1] = s.devid[1] ∧ d[2] = s.devid[2] ∧ d[3] = s.devid[3])

/-- What the two `WRREG.DEVID` commands wrote, the two `RDREG.DEVID` commands read (spec/44_register_access.md R181,
R185). -/
def Obligations.DevidReadsBack : Prop :=
  ∀ (s t u : State) (lo hi : Word),
    exec (.wrregDevidLo lo) s = .next t → exec (.wrregDevidHi hi) t = .next u →
    ∃ v w, exec .rdregDevidLo u = .next v ∧ rspOut v = some ⟨.ok, lo⟩ ∧
      exec .rdregDevidHi v = .next w ∧ rspOut w = some ⟨.ok, hi⟩

/-! ## All commands together -/

/-- spec/70_reset_and_hazards.md R228: the line mode at the end of every command, of an ILLEGAL word and of a reset. The row
of UNDEF_SEQ is said of the hardware's answer, since the model faults there (spec/42_session.md R145). -/
def Obligations.EndModes : Prop :=
  (∀ (i : Instr) (s : State), Defined i s → ∃ t, exec i s = .next t ∧ t.lmode = modeAfter i (presenceAnswer s) s.lmode) ∧
  (∀ (s : State) (w : CmdWord) (e : IllegalWord), decode w = .error e →
    ∃ t, runWord w s = .next t ∧ t.lmode = s.lmode) ∧
  (∀ s : State, (undefSeqAnswer s).lmode = s.lmode) ∧
  (∀ s : State, (resetLow s).lmode = .rel)

/-- Every command extends the line trace by one segment and changes the rest of the past not at all (spec/20_memory.md R60);
the segment's samples are as many as spec/30_encoding.md R75 says, one answer of the environment is used for each, and the
line mode afterwards is the one its last `Drive` set. A `POLL_CONV` in IDLE is a fault and left out. -/
def Obligations.TraceSegmentOfEveryCommand : Prop :=
  ∀ (i : Instr) (s : State), Defined i s → ∃ (t : State) (seg : Trace),
    exec i s = .next t ∧ t.trace = s.trace ++ seg ∧ t.pastTraces = s.pastTraces ∧
    (samples seg).length = sampleCount i s.conv ∧ t.env = s.env.drop (sampleCount i s.conv) ∧
    t.lmode = endMode s.lmode seg

/-- spec/70_reset_and_hazards.md R238: the line time of every command, in the parameters (for `T_LOW` ≤ `T_SLOT`, which a slot
needs) and at the defaults; of a `POLL_CONV` in IDLE, where the model faults, it is said of the hardware's answer; an ILLEGAL
word takes none. -/
def Obligations.LineTimeOfEveryCommand : Prop :=
  (∀ (i : Instr) (s : State), Defined i s → s.cfg.tLow ≤ s.cfg.tSlot → ∃ (t : State) (seg : Trace),
    exec i s = .next t ∧ t.trace = s.trace ++ seg ∧ duration seg = lineTime s.cfg i) ∧
  (∀ s : State, (undefSeqAnswer s).trace = s.trace) ∧
  (∀ (s : State) (w : CmdWord) (e : IllegalWord), decode w = .error e →
    ∃ t, runWord w s = .next t ∧ t.trace = s.trace) ∧
  lineTime Config.default .beginSession = 960 ∧ lineTime Config.default .startConv = 1520 ∧
  lineTime Config.default .readTemp = 5840 ∧ lineTime Config.default (.setRes 9) = 560 ∧
  lineTime Config.default (.setRes 8) = 0 ∧ (∀ v, lineTime Config.default (.setAlarm v) = 1120) ∧
  lineTime Config.default .checkAlarm = 497

/-- `RES`, `THR` and `DEVID` are seen by a host through their `RDREG` commands only (spec/44_register_access.md R182;
spec/10_state.md R28 to R30): two runs that differ in them alone have the same line, the same response and the same other
state for every other command; a `POLL_CONV` in IDLE faults in both. -/
def Obligations.SettingsAreSeenByTheirReadsOnly : Prop :=
  ∀ (i : Instr) (s : State) (res : Byte) (thr : Word) (devid : Vector Byte 8),
    i ≠ .rdregRes → i ≠ .rdregThr → i ≠ .rdregDevidLo → i ≠ .rdregDevidHi →
    let s' := { s with res := res, thr := thr, devid := devid }
    (Defined i s →
      ∃ t u, exec i s = .next t ∧ exec i s' = .next u ∧
        { u with res := t.res, thr := t.thr, devid := t.devid } = t) ∧
    (¬ Defined i s → exec i s = .fault .undefSeq ∧ exec i s' = .fault .undefSeq)

/-- Only the commands the spec names write a host-visible register: `RES` by an accepted `SET_RES` and `WRREG.RES`, `THR` by
`SET_ALARM` and `WRREG.THR`, `DEVID` by its two writes (spec/10_state.md R26), `PRES` by the three commands that begin with a
presence reset (R24); and no command touches the parameters, the host's store, its cursor or what it has received. (A
`POLL_CONV` in IDLE faults and has no next state.) -/
def Obligations.OnlyTheNamedCommandsWriteARegister : Prop :=
  ∀ (i : Instr) (s : State), Defined i s → ∃ t, exec i s = .next t ∧
    (t.res ≠ s.res → (∃ r, i = .setRes r ∧ 9 ≤ r.toNat ∧ r.toNat ≤ 12) ∨ ∃ x, i = .wrregRes x) ∧
    (t.thr ≠ s.thr → (∃ v, i = .setAlarm v) ∨ ∃ x, i = .wrregThr x) ∧
    (t.devid ≠ s.devid → (∃ x, i = .wrregDevidLo x) ∨ ∃ x, i = .wrregDevidHi x) ∧
    (t.pres ≠ s.pres → i = .beginSession ∨ i = .startConv ∨ i = .readTemp) ∧
    (t.sp ≠ s.sp → i = .readTemp) ∧
    t.cfg = s.cfg ∧ t.store = s.store ∧ t.cur = s.cur ∧ t.received = s.received ∧ t.rstN = s.rstN ∧
    t.opr = s.opr ∧ t.argr = s.argr

/-- spec/70_reset_and_hazards.md R229: after `PARA_OFF` with a conversion running, a poll never answers true, however many
polls are made and whatever the environment answers. -/
def Obligations.PollNeverTrueWhileHeldLow : Prop :=
  ∀ (s : State) (n : Nat), s.conv = .converting →
    ∃ t u, exec .paraOff s = .next t ∧ pollTimes (n + 1) t = .next u ∧
      u.lmode = .low ∧ u.conv = .converting ∧ u.smp = false ∧ rspOut u = some ⟨.ok, 0⟩

/-! ## Reset -/

/-- The state after reset (spec/70_reset_and_hazards.md R220; spec/10_state.md R26), for every value of the parameters: the
values the spec gives, and the host's cursor at `EE_ORIGIN` (spec/45_host_collaborators.md R191). -/
def Obligations.ResetStateHoldsTheSpecsValues : Prop :=
  State.reset = State.construct Config.default ∧
  ∀ cfg : Config,
    let s := State.construct cfg
    s.cfg = cfg ∧ s.lmode = .rel ∧ s.conv = .idle ∧ s.pres = false ∧ s.devid = Vector.replicate 8 0 ∧ s.tmr = 0 ∧
    s.seq = .idle ∧ s.trace = [] ∧ cmdReady s = true ∧ busy s = false ∧ rspOut s = none ∧ statusWord s = 0 ∧
    pads s = { dqO := false, dqOe := false, dqPu := true } ∧ s.cur = cfg.eeOrigin

/-- spec/70_reset_and_hazards.md R220: when `rst_n` goes low the line is released, `CONV`, `PRES`, `DEVID`, `TMR` have their
reset values, no response is out, the trace is empty and the block is not ready; it is ready once `rst_n` is high again. The
host's and the environment's own state is not the block's and stays. Nothing is said of the registers R220 leaves unspecified
(notes/assumptions/5.md). -/
def Obligations.ResetInput : Prop :=
  ∀ (s : State) (rest : List HostInput), s.host = .rst false :: .rst true :: rest → s.rstN = true →
    ∃ t u, step s = .next t ∧ step t = .next u ∧
      t.lmode = .rel ∧ pads t = { dqO := false, dqOe := false, dqPu := true } ∧ t.conv = .idle ∧
      t.pres = false ∧ t.devid = Vector.replicate 8 0 ∧ t.tmr = 0 ∧ t.seq = .idle ∧ rspOut t = none ∧
      t.trace = [] ∧ cmdReady t = false ∧
      t.cfg = s.cfg ∧ t.env = s.env ∧ t.received = s.received ∧ t.store = s.store ∧ t.cur = s.cur ∧
      u = { t with host := rest, rstN := true } ∧ cmdReady u = true

/-- spec/70_reset_and_hazards.md R221: a reset inside the transmission of `SET_RES` (eight slots of five events each) or of
`SET_ALARM` (sixteen) leaves `RES` and `THR` unchanged, no response is produced and the line is released. Where the cut falls
is counted in events of the model's trace (notes/assumptions/6.md). -/
def Obligations.ResetInsideATransmission : Prop :=
  ∀ (s : State) (w : CmdWord) (i : Instr) (events micros : Nat) (rest : List HostInput),
    s.host = .presentThenReset w events micros :: rest → cmdReady s = true → decode w = .ok i →
    ((∃ v, i = .setAlarm v ∧ events < 80) ∨ (∃ r, i = .setRes r ∧ 9 ≤ r.toNat ∧ r.toNat ≤ 12 ∧ events < 40)) →
    ∃ t, step s = .next t ∧ t.res = s.res ∧ t.thr = s.thr ∧ rspOut t = none ∧ t.received = s.received ∧
      t.lmode = .rel ∧ t.conv = .idle ∧ t.trace = []

/-- A command abandoned by reset, whichever it is and wherever the cut falls (spec/70_reset_and_hazards.md R221): no response,
the reset values, and a closed trace that is the old trace with what the whole command would have shown cut to its first
`events` events and, if the next one is a wait, `micros` µs of it; the environment has answered the samples of that prefix.
`RES` and `THR` are as before the command up to the instant after its last event, and as the whole command leaves them when
the cut is later. Where the cut falls is counted as notes/assumptions/6.md says. -/
def Obligations.ResetInsideAnyCommand : Prop :=
  ∀ (s : State) (w : CmdWord) (i : Instr) (events micros : Nat) (rest : List HostInput),
    s.host = .presentThenReset w events micros :: rest → cmdReady s = true → decode w = .ok i → Defined i s →
    ∃ (t u : State) (seg : Trace),
      exec i { s with host := rest, opr := opField w, argr := argField w, seq := .running } = .next u ∧
      u.trace = s.trace ++ seg ∧ step s = .next t ∧ HeldInReset t ∧ t.rstN = false ∧ t.host = rest ∧
      t.received = s.received ∧
      t.pastTraces = s.pastTraces ++ [s.trace ++ cutTrace events micros seg] ∧
      t.env = s.env.drop (samples (cutTrace events micros seg)).length ∧
      (∀ n, seg[events]? = some (.wait n) →
        cutTrace events micros seg = seg.take events ++ [.wait (min n micros)]) ∧
      ((∀ n, seg[events]? ≠ some (.wait n)) → cutTrace events micros seg = seg.take events) ∧
      (events ≤ seg.length → t.res = s.res ∧ t.thr = s.thr) ∧
      (seg.length < events → t.res = u.res ∧ t.thr = u.thr)

/-! ## The host's collaborators -/

/-- spec/45_host_collaborators.md R194 and R193: `SAVE` writes thirteen bytes at the cursor, `RES`, then `THR` low byte first,
then `DEVID[0]` to `DEVID[7]`, keeps every other byte of the store, moves the cursor by 13, and does not change the block nor
touch the line. -/
def Obligations.SaveResult : Prop :=
  ∀ (s : State) (rest : List HostInput), s.host = .save :: rest → cmdReady s = true →
    s.cur + 13 ≤ s.cfg.eeSize →
    ∃ (m : Memory) (rs : List Response),
      step s = .next
        { s with
          host := rest
          store := m
          cur := s.cur + 13
          received := s.received ++ rs
          opr := 0x14
          argr := 0 } ∧
      rs.length = 4 ∧
      (∀ k : Nat, k < s.cur ∨ s.cur + 13 ≤ k → storeRead m k = storeRead s.store k) ∧
      storeRead m s.cur = s.res ∧
      storeRead m (s.cur + 4) ++ storeRead m (s.cur + 3) ++ storeRead m (s.cur + 2) ++
        storeRead m (s.cur + 1) = s.thr ∧
      (∀ k : Fin 8, storeRead m (s.cur + 5 + k) = s.devid[k])

/-- spec/45_host_collaborators.md R195: `LOAD` puts the thirteen bytes at the cursor into `RES`, `THR`, `DEVID` unchecked,
moves the cursor by 13, leaves the store alone and transmits nothing. -/
def Obligations.LoadResult : Prop :=
  ∀ (s : State) (rest : List HostInput), s.host = .load :: rest → cmdReady s = true →
    s.cur + 13 ≤ s.cfg.eeSize →
    ∃ d : Vector Byte 8,
      (∀ k : Fin 8, d[k] = storeRead s.store (s.cur + 5 + k)) ∧
      step s = .next
        { s with
          host := rest
          res := storeRead s.store s.cur
          thr := storeRead s.store (s.cur + 4) ++ storeRead s.store (s.cur + 3) ++
            storeRead s.store (s.cur + 2) ++ storeRead s.store (s.cur + 1)
          devid := d
          cur := s.cur + 13
          received := s.received ++ [⟨.ok, 0⟩, ⟨.ok, 0⟩, ⟨.ok, 0⟩, ⟨.ok, 0⟩]
          opr := 0x24
          argr := d[7] ++ d[6] ++ d[5] ++ d[4] }

/-- spec/45_host_collaborators.md R197: `SAVE`, then, with the cursor back where it was and the stored bytes as they were left,
`LOAD` reproduces the resolution, the threshold and the identifier bit for bit, whatever the block holds by then. -/
def Obligations.SaveThenLoadReproducesTheSettings : Prop :=
  ∀ (s t u : State) (rest rest' : List HostInput),
    s.host = .save :: rest → cmdReady s = true → step s = .next t →
    u.host = .load :: rest' → cmdReady u = true → u.store = t.store → u.cur = s.cur →
    u.cfg.eeSize = s.cfg.eeSize →
    ∃ v, step u = .next v ∧ v.res = s.res ∧ v.thr = s.thr ∧ v.devid = s.devid ∧ v.trace = u.trace

/-- spec/45_host_collaborators.md R196: a `SAVE` or a `LOAD` with fewer than 13 bytes left is refused, no step taken. -/
def Obligations.StoreExhaustionIsRefused : Prop :=
  ∀ (s : State) (a : HostInput) (rest : List HostInput), a = .save ∨ a = .load → s.host = a :: rest →
    cmdReady s = true → s.cfg.eeSize < s.cur + 13 → step s = .refused .storeExhausted

/-- spec/45_host_collaborators.md R190: `READ_F` is one `READ_TEMP`, whose response the host takes, and then arithmetic on its
data alone: a not-a-number passes unchanged; a finite value gives no not-a-number, and gives exactly `C × 9/5 + 32` whenever
some binary32 value is that. -/
def Obligations.ReadFahrenheit : Prop :=
  (∀ (s : State) (rest : List HostInput), s.host = .readF :: rest → cmdReady s = true →
    ∃ (t : State) (r : Response),
      exec .readTemp { s with host := rest, opr := 0x04, argr := 0, seq := .running } = .next t ∧
      rspOut t = some r ∧
      step s = .next
        { t with seq := .idle, received := s.received ++ [r], fahr := some (readFData r.data) }) ∧
  (∀ c : Word, isNaN c = true → readFData c = c) ∧
  (∀ c : Word, isFinite c = true → isNaN (readFData c) = false) ∧
  (∀ c f : Word, isFinite c = true → isFinite f = true →
    5 * f32Scaled f = 9 * f32Scaled c + 160 * 2 ^ 149 →
    isFinite (readFData c) = true ∧ f32Scaled (readFData c) = f32Scaled f)

/-! ## Invariants -/

/-- What every step keeps: the store stays canonical, the timer is idle and no command is in mid-run between steps, the line
mode is the one the last `Drive` since reset set, and a low `rst_n` holds the reset values. -/
def Obligations.EveryStepKeepsTheInvariant : Prop :=
  ∀ s t : State, Inv s → step s = .next t → Inv t

/-- The state after reset meets the invariant. -/
def Obligations.ResetMeetsTheInvariant : Prop := Inv State.reset

/-- No step changes the parameters of spec/00_scope.md R7; nothing but a SAVE changes the store, and nothing but a SAVE or a
LOAD moves the cursor (spec/45_host_collaborators.md R191). -/
def Obligations.OnlySaveAndLoadMoveTheCursor : Prop :=
  ∀ s t : State, step s = .next t →
    t.cfg = s.cfg ∧
    (t.store ≠ s.store → ∃ rest, s.host = .save :: rest) ∧
    (t.cur ≠ s.cur → (∃ rest, s.host = .save :: rest) ∨ ∃ rest, s.host = .load :: rest) ∧
    (t.cur = s.cur ∨ t.cur = s.cur + 13)

/-- When a step does not answer a next state: the host's `SAVE` or `LOAD` met the end of the store
(spec/45_host_collaborators.md R196), a ready block was presented `POLL_CONV` in IDLE (spec/42_session.md R145), or the clock
stopped inside a command (spec/93_implementation_defined.md U5); every other step answers a next state. -/
def Obligations.StepsThatStop : Prop :=
  ∀ s : State,
    (∃ t, step s = .next t) ∨
    (step s = .refused .storeExhausted ∧
      ((∃ rest, s.host = .save :: rest) ∨ ∃ rest, s.host = .load :: rest) ∧ s.cfg.eeSize < s.cur + 13) ∨
    (step s = .fault .undefSeq ∧ s.conv = .idle ∧ cmdReady s = true ∧
      ∃ rest, s.host = .present 0x0300000000 :: rest ∨
        ∃ events micros, s.host = .presentThenReset 0x0300000000 events micros :: rest) ∨
    (step s = .fault .clockStopped ∧ cmdReady s = true ∧ ∃ w rest, s.host = .presentThenClockStop w :: rest)
end

