-- ==== Sys2Proof/Laws/Binary32.lean ====
section
/-! SUPPORT. Binary32 written and read back: a scaled integer that binary32 holds comes back unchanged
(spec/00_scope.md R9, spec/46_arithmetic_and_data_movement.md R241). -/

namespace Sys2Proof.Machine

/-- The magnitude bits of a pattern: its exponent and fraction fields together. -/
theorem f32_fields (v : Word) (e f : Nat) (hf : f < 2 ^ 23)
    (h : v.toNat % 2 ^ 31 = e * 2 ^ 23 + f) : f32Exp v = e ∧ f32Frac v = f := by
  have hv : v.toNat < 2 ^ 32 := v.isLt
  constructor
  · rw [f32Exp, BitVec.extractLsb'_toNat, Nat.shiftRight_eq_div_pow]
    omega
  · rw [f32Frac, BitVec.extractLsb'_toNat, Nat.shiftRight_eq_div_pow]
    omega

/-- The magnitude field of `f32OfScaled`. -/
def f32Field (m : Nat) : Nat := f32Drop m * 2 ^ 23 + m / 2 ^ f32Drop m

/-- What is left of a magnitude after the bits binary32 drops fits in 24 bits, and fills them if any were dropped. -/
theorem f32_kept (m : Nat) :
    m / 2 ^ f32Drop m < 2 ^ 24 ∧ (0 < f32Drop m → 2 ^ 23 ≤ m / 2 ^ f32Drop m) := by
  by_cases hm : m = 0
  · subst hm
    simp [f32Drop]
  · have lo : 2 ^ m.log2 ≤ m := Nat.log2_self_le hm
    have hi : m < 2 ^ (m.log2 + 1) := Nat.lt_log2_self
    unfold f32Drop
    by_cases h : m.log2 ≤ 23
    · rw [Nat.sub_eq_zero_of_le h]
      have : (2 : Nat) ^ (m.log2 + 1) ≤ 2 ^ 24 := Nat.pow_le_pow_right (by omega) (by omega)
      constructor
      · simp; omega
      · intro h0; omega
    · have e1 : (2 : Nat) ^ (m.log2 + 1) = 2 ^ 24 * 2 ^ (m.log2 - 23) := by
        rw [← Nat.pow_add]; congr 1; omega
      have e2 : (2 : Nat) ^ m.log2 = 2 ^ 23 * 2 ^ (m.log2 - 23) := by
        rw [← Nat.pow_add]; congr 1; omega
      constructor
      · rw [Nat.div_lt_iff_lt_mul (Nat.two_pow_pos _)]; omega
      · intro _
        rw [Nat.le_div_iff_mul_le (Nat.two_pow_pos _)]; omega

/-- Binary32 reads back the magnitude that was written, where it holds it. -/
theorem f32_roundtrip (n : Int) (h : f32Holds n = true) :
    isFinite (f32OfScaled n) = true ∧ f32Scaled (f32OfScaled n) = n := by
  obtain ⟨hmod, hdrop⟩ : n.natAbs % 2 ^ f32Drop n.natAbs = 0 ∧ f32Drop n.natAbs ≤ 253 := by
    simpa [f32Holds] using h
  generalize hm : n.natAbs = m at hmod hdrop
  obtain ⟨kept, full⟩ := f32_kept m
  have exact : m = m / 2 ^ f32Drop m * 2 ^ f32Drop m := (Nat.div_mul_cancel (Nat.dvd_of_mod_eq_zero hmod)).symm
  have bound : f32Field m < 2 ^ 31 := by unfold f32Field; omega
  have toNat : (f32OfScaled n).toNat = (if n < 0 then 2 ^ 31 else 0) + f32Field m := by
    have low : (BitVec.ofNat 32 (f32Field m)).toNat = f32Field m := by
      rw [BitVec.toNat_ofNat]; omega
    rw [f32OfScaled, hm, BitVec.toNat_or]
    show _ ||| (BitVec.ofNat 32 (f32Field m)).toNat = _
    rw [low]
    split
    · have := Nat.two_pow_add_eq_or_of_lt bound 1
      simpa using this.symm
    · simp
  have sign : (f32OfScaled n).msb = decide (n < 0) := by
    rw [BitVec.msb_eq_decide, toNat]
    by_cases hn : n < 0 <;> simp [hn] <;> omega
  have low : (f32OfScaled n).toNat % 2 ^ 31 = f32Field m := by
    rw [toNat]; split <;> omega
  have mag : f32Exp (f32OfScaled n) ≠ 255 ∧ f32Mag (f32OfScaled n) = m := by
    by_cases small : m / 2 ^ f32Drop m < 2 ^ 23
    · have d0 : f32Drop m = 0 := by
        by_contra h0
        have := full (Nat.pos_of_ne_zero h0)
        omega
      rw [d0, Nat.pow_zero, Nat.div_one] at small
      obtain ⟨he, hf⟩ := f32_fields (f32OfScaled n) 0 m small (by rw [low, f32Field, d0]; simp)
      simp [f32Mag, he, hf]
    · obtain ⟨he, hf⟩ := f32_fields (f32OfScaled n) (f32Drop m + 1) (m / 2 ^ f32Drop m - 2 ^ 23) (by omega)
        (by rw [low, f32Field, Nat.succ_mul]; omega)
      refine ⟨by omega, ?_⟩
      rw [f32Mag, he, hf, if_neg (by omega), Nat.add_sub_cancel, show 2 ^ 23 + (m / 2 ^ f32Drop m - 2 ^ 23) =
        m / 2 ^ f32Drop m by omega]
      exact exact.symm
  refine ⟨by simpa [isFinite] using mag.1, ?_⟩
  rw [f32Scaled, sign, mag.2]
  by_cases hn : n < 0 <;> simp [hn] <;> omega

/-- Binary32 holds every integer number of sixteenths whose magnitude fits 16 bits (R241 a). -/
theorem f32Holds_sixteenths (t : Int) (h : t.natAbs < 2 ^ 16) : f32Holds (t * 2 ^ 145) = true := by
  have abs : (t * 2 ^ 145).natAbs = t.natAbs * 2 ^ 145 := by
    rw [Int.natAbs_mul]; rfl
  unfold f32Holds
  rw [abs]
  generalize t.natAbs = m at h
  by_cases hm : m = 0
  · subst hm; decide
  · have hlog : (m * 2 ^ 145).log2 < 161 := by
      rw [Nat.log2_lt (by positivity)]
      calc m * 2 ^ 145 < 2 ^ 16 * 2 ^ 145 := Nat.mul_lt_mul_of_pos_right h (by positivity)
        _ = 2 ^ 161 := by rw [← Nat.pow_add]
    have hd : f32Drop (m * 2 ^ 145) ≤ 145 := by unfold f32Drop; omega
    have : 2 ^ f32Drop (m * 2 ^ 145) ∣ m * 2 ^ 145 :=
      Dvd.dvd.mul_left (Nat.pow_dvd_pow 2 hd) m
    simp only [Bool.and_eq_true, beq_iff_eq, decide_eq_true_eq]
    exact ⟨Nat.mod_eq_zero_of_dvd this, by omega⟩

/-- `notNaN` never yields a not-a-number. -/
@[simp] theorem isNaN_notNaN (v : Word) : isNaN (notNaN v) = false := by
  unfold notNaN
  split
  · have frac : (v &&& 0xFF800000#32).extractLsb' 0 23 = 0#23 := by
      apply BitVec.eq_of_getLsbD_eq
      intro i hi
      rw [BitVec.getLsbD_extractLsb', BitVec.getLsbD_and]
      have mask : (0xFF800000#32).getLsbD (0 + i) = false := by
        revert i; decide
      rw [mask, Bool.and_false, Bool.and_false, BitVec.getLsbD_zero]
    simp [isNaN, f32Frac, frac]
  · simp_all

end Sys2Proof.Machine
end

