-- ==== Sys2Proof/Laws/Config.lean ====
section
/-! SUPPORT. The parameters of one value (spec/00_scope.md R7): their values, and what the arithmetic that uses them is. -/

namespace Sys2Proof

variable (cfg : Config)

@[simp] theorem Config.family_val : cfg.family.val = 0x28#8 := cfg.family.2
@[simp] theorem Config.spLen_val : cfg.spLen.val = 9 := cfg.spLen.2
@[simp] theorem Config.devidLen_val : cfg.devidLen.val = 8 := cfg.devidLen.2
@[simp] theorem Config.resMin_val : cfg.resMin.val = 9 := cfg.resMin.2
@[simp] theorem Config.resMax_val : cfg.resMax.val = 12 := cfg.resMax.2
@[simp] theorem Config.tempScale_val : cfg.tempScale.val = 0x3D800000#32 := cfg.tempScale.2
@[simp] theorem Config.flen_val : cfg.flen.val = 32 := cfg.flen.2
@[simp] theorem Config.nan32_val : cfg.nan32.val = 0x7FC00000#32 := cfg.nan32.2

/-- One SAVE or LOAD moves thirteen bytes (spec/45_host_collaborators.md R193). -/
@[simp] theorem Config.savedBytes_eq : cfg.savedBytes = 13 := by simp [Config.savedBytes]

namespace Machine

/-- The range of `SET_RES` (spec/43_config_alarm_power.md R160). -/
theorem resAccepted_iff (r : Word) : resAccepted cfg r = true ↔ 9 ≤ r.toNat ∧ r.toNat ≤ 12 := by
  simp [resAccepted]

/-- The pattern of `SET_RES`, `((r - 9) << 5)[7:0]` (R160). -/
theorem resPattern_eq (r : Word) : resPattern cfg r = ((r - 9#32) <<< 5).extractLsb' 0 8 := by
  simp [resPattern]

/-- A temperature is a number of sixteenths, `2^145` units each (spec/42_session.md R147). -/
theorem decodeTemp_eq (sp : Vector Byte 9) : decodeTemp cfg sp = f32OfScaled (tempInt cfg sp * 2 ^ 145) := by
  have scale : f32Scaled 0x3D800000#32 = 2 ^ 145 := by decide
  rw [decodeTemp, cfg.tempScale_val, scale]

/-- The data of a `READ_TEMP` response (R146). -/
theorem readTempData_eq (sp : Vector Byte 9) :
    readTempData cfg sp = if sp[0] = 0x28 then decodeTemp cfg sp else 0x7FC00000 := by
  rw [readTempData, cfg.family_val, cfg.nan32_val]
  by_cases h : sp[0] = 0x28#8 <;> simp [h]

end Machine

end Sys2Proof
end

