-- ==== Sys2Proof/Laws/PerInstr.lean ====
section
/-! SUPPORT. Statements made per instruction. RowOf: the encoded word matches the command's own row of the opcode map
(spec/30_encoding.md R77) and carries its opcode and operand (R72). -/

namespace Sys2Proof.Laws

/-- A well-formed command's word matches its row and has the command's two fields. -/
def RowOf.Statement (i : Instr) : Prop :=
  i.WellFormed →
    encode i &&& i.rowMask = i.rowMatch ∧ opField (encode i) = i.opcode ∧ argField (encode i) = i.operand

/-- The two fields of an encoded word (spec/30_encoding.md R72). -/
theorem fields_encode (i : Instr) : opField (encode i) = i.opcode ∧ argField (encode i) = i.operand :=
  ⟨BitVec.extractLsb'_append_eq_left, BitVec.extractLsb'_append_eq_right⟩

/-- A word with a free 32-bit operand matches a row that fixes the opcode only. -/
theorem append_and_opMask (op : Byte) (arg : Word) :
    ((op ++ arg : CmdWord) &&& 0xFF00000000) = (op ++ 0#32 : CmdWord) := by
  have mask : (0xFF00000000 : CmdWord) = (0xFF#8 ++ 0#32 : CmdWord) := by decide
  have op_and : op &&& 0xFF#8 = op := by simpa using BitVec.and_allOnes (x := op)
  rw [mask, BitVec.and_append, op_and, BitVec.and_zero]

theorem RowOf.beginSession : RowOf.Statement .beginSession := fun _ => by decide
theorem RowOf.startConv : RowOf.Statement .startConv := fun _ => by decide
theorem RowOf.pollConv : RowOf.Statement .pollConv := fun _ => by decide
theorem RowOf.readTemp : RowOf.Statement .readTemp := fun _ => by decide
theorem RowOf.setRes (r : Word) : RowOf.Statement (.setRes r) := fun _ =>
  ⟨by
    simp only [encode, Instr.opcode, Instr.operand, Instr.rowMask, Instr.rowMatch, append_and_opMask]
    decide, fields_encode _⟩
theorem RowOf.setAlarm (v : Word) : RowOf.Statement (.setAlarm v) := fun _ =>
  ⟨by
    simp only [encode, Instr.opcode, Instr.operand, Instr.rowMask, Instr.rowMatch, append_and_opMask]
    decide, fields_encode _⟩
theorem RowOf.checkAlarm : RowOf.Statement .checkAlarm := fun _ => by decide
theorem RowOf.paraOff : RowOf.Statement .paraOff := fun _ => by decide
theorem RowOf.paraOn : RowOf.Statement .paraOn := fun _ => by decide
theorem RowOf.rdregStatus : RowOf.Statement .rdregStatus := fun _ => by decide
theorem RowOf.rdregRes : RowOf.Statement .rdregRes := fun _ => by decide
theorem RowOf.rdregThr : RowOf.Statement .rdregThr := fun _ => by decide
theorem RowOf.rdregDevidLo : RowOf.Statement .rdregDevidLo := fun _ => by decide
theorem RowOf.rdregDevidHi : RowOf.Statement .rdregDevidHi := fun _ => by decide

/-- `WRREG.RES` fixes bits 31:8 of its operand too. -/
theorem RowOf.wrregRes (x : Word) : RowOf.Statement (.wrregRes x) := fun wf => by
  refine ⟨?_, fields_encode _⟩
  have high : x &&& 0xFFFFFF00#32 = 0#32 := by
    have h0 : x.extractLsb' 8 24 = 0#24 := by simpa [Instr.WellFormed, Instr.wellFormed] using wf
    have split : x = (x.extractLsb' 8 24 ++ x.extractLsb' 0 8 : Word) := by
      have whole := BitVec.extractLsb'_append_extractLsb'_eq_extractLsb'
        (x := x) (start₁ := 0) (len₁ := 8) (start₂ := 8) (len₂ := 24) rfl
      rw [whole]
      simp
    have mask : 0xFFFFFF00#32 = (0xFFFFFF#24 ++ 0#8 : Word) := by decide
    rw [split, h0, mask, BitVec.and_append, BitVec.and_zero, BitVec.zero_and]
    rfl
  have mask : (0xFFFFFFFF00 : CmdWord) = (0xFF#8 ++ 0xFFFFFF00#32 : CmdWord) := by decide
  show ((0x21#8 ++ x : CmdWord) &&& 0xFFFFFFFF00) = 0x2100000000
  rw [mask, BitVec.and_append, high]
  rfl

theorem RowOf.wrregThr (x : Word) : RowOf.Statement (.wrregThr x) := fun _ =>
  ⟨by
    simp only [encode, Instr.opcode, Instr.operand, Instr.rowMask, Instr.rowMatch, append_and_opMask]
    decide, fields_encode _⟩
theorem RowOf.wrregDevidLo (x : Word) : RowOf.Statement (.wrregDevidLo x) := fun _ =>
  ⟨by
    simp only [encode, Instr.opcode, Instr.operand, Instr.rowMask, Instr.rowMatch, append_and_opMask]
    decide, fields_encode _⟩
theorem RowOf.wrregDevidHi (x : Word) : RowOf.Statement (.wrregDevidHi x) := fun _ =>
  ⟨by
    simp only [encode, Instr.opcode, Instr.operand, Instr.rowMask, Instr.rowMatch, append_and_opMask]
    decide, fields_encode _⟩

end Sys2Proof.Laws
end

