-- ==== Sys2Proof/Laws/State.lean ====
section
/-! SUPPORT. One lemma per field per update of the state, each true by `rfl`, so that no later proof unfolds a record
update. -/

namespace Sys2Proof.Machine

/-! ### `line` -/

@[simp] theorem line_cfg (m : LineMode) (s : State) : (line m s).cfg = s.cfg := rfl
@[simp] theorem line_lmode (m : LineMode) (s : State) : (line m s).lmode = m := rfl
@[simp] theorem line_conv (m : LineMode) (s : State) : (line m s).conv = s.conv := rfl
@[simp] theorem line_pres (m : LineMode) (s : State) : (line m s).pres = s.pres := rfl
@[simp] theorem line_res (m : LineMode) (s : State) : (line m s).res = s.res := rfl
@[simp] theorem line_thr (m : LineMode) (s : State) : (line m s).thr = s.thr := rfl
@[simp] theorem line_devid (m : LineMode) (s : State) : (line m s).devid = s.devid := rfl
@[simp] theorem line_sp (m : LineMode) (s : State) : (line m s).sp = s.sp := rfl
@[simp] theorem line_shreg (m : LineMode) (s : State) : (line m s).shreg = s.shreg := rfl
@[simp] theorem line_acc (m : LineMode) (s : State) : (line m s).acc = s.acc := rfl
@[simp] theorem line_bitcnt (m : LineMode) (s : State) : (line m s).bitcnt = s.bitcnt := rfl
@[simp] theorem line_bytecnt (m : LineMode) (s : State) : (line m s).bytecnt = s.bytecnt := rfl
@[simp] theorem line_smp (m : LineMode) (s : State) : (line m s).smp = s.smp := rfl
@[simp] theorem line_tmr (m : LineMode) (s : State) : (line m s).tmr = s.tmr := rfl
@[simp] theorem line_opr (m : LineMode) (s : State) : (line m s).opr = s.opr := rfl
@[simp] theorem line_argr (m : LineMode) (s : State) : (line m s).argr = s.argr := rfl
@[simp] theorem line_seq (m : LineMode) (s : State) : (line m s).seq = s.seq := rfl
@[simp] theorem line_rstN (m : LineMode) (s : State) : (line m s).rstN = s.rstN := rfl
@[simp] theorem line_trace (m : LineMode) (s : State) : (line m s).trace = s.trace ++ [.drive m] := rfl
@[simp] theorem line_pastTraces (m : LineMode) (s : State) : (line m s).pastTraces = s.pastTraces := rfl
@[simp] theorem line_env (m : LineMode) (s : State) : (line m s).env = s.env := rfl
@[simp] theorem line_host (m : LineMode) (s : State) : (line m s).host = s.host := rfl
@[simp] theorem line_received (m : LineMode) (s : State) : (line m s).received = s.received := rfl
@[simp] theorem line_fahr (m : LineMode) (s : State) : (line m s).fahr = s.fahr := rfl
@[simp] theorem line_cur (m : LineMode) (s : State) : (line m s).cur = s.cur := rfl
@[simp] theorem line_store (m : LineMode) (s : State) : (line m s).store = s.store := rfl
@[simp] theorem line_draws (m : LineMode) (s : State) : (line m s).draws = s.draws := rfl

/-! ### `delay` -/

@[simp] theorem delay_cfg (n : Nat) (s : State) : (delay n s).cfg = s.cfg := rfl
@[simp] theorem delay_lmode (n : Nat) (s : State) : (delay n s).lmode = s.lmode := rfl
@[simp] theorem delay_conv (n : Nat) (s : State) : (delay n s).conv = s.conv := rfl
@[simp] theorem delay_pres (n : Nat) (s : State) : (delay n s).pres = s.pres := rfl
@[simp] theorem delay_res (n : Nat) (s : State) : (delay n s).res = s.res := rfl
@[simp] theorem delay_thr (n : Nat) (s : State) : (delay n s).thr = s.thr := rfl
@[simp] theorem delay_devid (n : Nat) (s : State) : (delay n s).devid = s.devid := rfl
@[simp] theorem delay_sp (n : Nat) (s : State) : (delay n s).sp = s.sp := rfl
@[simp] theorem delay_shreg (n : Nat) (s : State) : (delay n s).shreg = s.shreg := rfl
@[simp] theorem delay_acc (n : Nat) (s : State) : (delay n s).acc = s.acc := rfl
@[simp] theorem delay_bitcnt (n : Nat) (s : State) : (delay n s).bitcnt = s.bitcnt := rfl
@[simp] theorem delay_bytecnt (n : Nat) (s : State) : (delay n s).bytecnt = s.bytecnt := rfl
@[simp] theorem delay_smp (n : Nat) (s : State) : (delay n s).smp = s.smp := rfl
@[simp] theorem delay_tmr (n : Nat) (s : State) : (delay n s).tmr = 0 := rfl
@[simp] theorem delay_opr (n : Nat) (s : State) : (delay n s).opr = s.opr := rfl
@[simp] theorem delay_argr (n : Nat) (s : State) : (delay n s).argr = s.argr := rfl
@[simp] theorem delay_seq (n : Nat) (s : State) : (delay n s).seq = s.seq := rfl
@[simp] theorem delay_rstN (n : Nat) (s : State) : (delay n s).rstN = s.rstN := rfl
@[simp] theorem delay_trace (n : Nat) (s : State) : (delay n s).trace = s.trace ++ [.wait n] := rfl
@[simp] theorem delay_pastTraces (n : Nat) (s : State) : (delay n s).pastTraces = s.pastTraces := rfl
@[simp] theorem delay_env (n : Nat) (s : State) : (delay n s).env = s.env := rfl
@[simp] theorem delay_host (n : Nat) (s : State) : (delay n s).host = s.host := rfl
@[simp] theorem delay_received (n : Nat) (s : State) : (delay n s).received = s.received := rfl
@[simp] theorem delay_fahr (n : Nat) (s : State) : (delay n s).fahr = s.fahr := rfl
@[simp] theorem delay_cur (n : Nat) (s : State) : (delay n s).cur = s.cur := rfl
@[simp] theorem delay_store (n : Nat) (s : State) : (delay n s).store = s.store := rfl
@[simp] theorem delay_draws (n : Nat) (s : State) : (delay n s).draws = s.draws := rfl

/-! ### `sample` -/

@[simp] theorem sample_cfg (s : State) : (sample s).cfg = s.cfg := rfl
@[simp] theorem sample_lmode (s : State) : (sample s).lmode = s.lmode := rfl
@[simp] theorem sample_conv (s : State) : (sample s).conv = s.conv := rfl
@[simp] theorem sample_pres (s : State) : (sample s).pres = s.pres := rfl
@[simp] theorem sample_res (s : State) : (sample s).res = s.res := rfl
@[simp] theorem sample_thr (s : State) : (sample s).thr = s.thr := rfl
@[simp] theorem sample_devid (s : State) : (sample s).devid = s.devid := rfl
@[simp] theorem sample_sp (s : State) : (sample s).sp = s.sp := rfl
@[simp] theorem sample_shreg (s : State) : (sample s).shreg = s.shreg := rfl
@[simp] theorem sample_acc (s : State) : (sample s).acc = s.acc := rfl
@[simp] theorem sample_bitcnt (s : State) : (sample s).bitcnt = s.bitcnt := rfl
@[simp] theorem sample_bytecnt (s : State) : (sample s).bytecnt = s.bytecnt := rfl
@[simp] theorem sample_smp (s : State) : (sample s).smp = sampleValue s := rfl
@[simp] theorem sample_tmr (s : State) : (sample s).tmr = s.tmr := rfl
@[simp] theorem sample_opr (s : State) : (sample s).opr = s.opr := rfl
@[simp] theorem sample_argr (s : State) : (sample s).argr = s.argr := rfl
@[simp] theorem sample_seq (s : State) : (sample s).seq = s.seq := rfl
@[simp] theorem sample_rstN (s : State) : (sample s).rstN = s.rstN := rfl
@[simp] theorem sample_trace (s : State) : (sample s).trace = s.trace ++ [.sample (sampleValue s)] := rfl
@[simp] theorem sample_pastTraces (s : State) : (sample s).pastTraces = s.pastTraces := rfl
@[simp] theorem sample_env (s : State) : (sample s).env = s.env.tail := rfl
@[simp] theorem sample_host (s : State) : (sample s).host = s.host := rfl
@[simp] theorem sample_received (s : State) : (sample s).received = s.received := rfl
@[simp] theorem sample_fahr (s : State) : (sample s).fahr = s.fahr := rfl
@[simp] theorem sample_cur (s : State) : (sample s).cur = s.cur := rfl
@[simp] theorem sample_store (s : State) : (sample s).store = s.store := rfl
@[simp] theorem sample_draws (s : State) : (sample s).draws = s.draws + 1 := rfl

/-! ### `setConv` -/

@[simp] theorem setConv_cfg (c : ConvState) (s : State) : (setConv c s).cfg = s.cfg := rfl
@[simp] theorem setConv_lmode (c : ConvState) (s : State) : (setConv c s).lmode = s.lmode := rfl
@[simp] theorem setConv_conv (c : ConvState) (s : State) : (setConv c s).conv = c := rfl
@[simp] theorem setConv_pres (c : ConvState) (s : State) : (setConv c s).pres = s.pres := rfl
@[simp] theorem setConv_res (c : ConvState) (s : State) : (setConv c s).res = s.res := rfl
@[simp] theorem setConv_thr (c : ConvState) (s : State) : (setConv c s).thr = s.thr := rfl
@[simp] theorem setConv_devid (c : ConvState) (s : State) : (setConv c s).devid = s.devid := rfl
@[simp] theorem setConv_sp (c : ConvState) (s : State) : (setConv c s).sp = s.sp := rfl
@[simp] theorem setConv_shreg (c : ConvState) (s : State) : (setConv c s).shreg = s.shreg := rfl
@[simp] theorem setConv_acc (c : ConvState) (s : State) : (setConv c s).acc = s.acc := rfl
@[simp] theorem setConv_bitcnt (c : ConvState) (s : State) : (setConv c s).bitcnt = s.bitcnt := rfl
@[simp] theorem setConv_bytecnt (c : ConvState) (s : State) : (setConv c s).bytecnt = s.bytecnt := rfl
@[simp] theorem setConv_smp (c : ConvState) (s : State) : (setConv c s).smp = s.smp := rfl
@[simp] theorem setConv_tmr (c : ConvState) (s : State) : (setConv c s).tmr = s.tmr := rfl
@[simp] theorem setConv_opr (c : ConvState) (s : State) : (setConv c s).opr = s.opr := rfl
@[simp] theorem setConv_argr (c : ConvState) (s : State) : (setConv c s).argr = s.argr := rfl
@[simp] theorem setConv_seq (c : ConvState) (s : State) : (setConv c s).seq = s.seq := rfl
@[simp] theorem setConv_rstN (c : ConvState) (s : State) : (setConv c s).rstN = s.rstN := rfl
@[simp] theorem setConv_trace (c : ConvState) (s : State) : (setConv c s).trace = s.trace := rfl
@[simp] theorem setConv_pastTraces (c : ConvState) (s : State) : (setConv c s).pastTraces = s.pastTraces := rfl
@[simp] theorem setConv_env (c : ConvState) (s : State) : (setConv c s).env = s.env := rfl
@[simp] theorem setConv_host (c : ConvState) (s : State) : (setConv c s).host = s.host := rfl
@[simp] theorem setConv_received (c : ConvState) (s : State) : (setConv c s).received = s.received := rfl
@[simp] theorem setConv_fahr (c : ConvState) (s : State) : (setConv c s).fahr = s.fahr := rfl
@[simp] theorem setConv_cur (c : ConvState) (s : State) : (setConv c s).cur = s.cur := rfl
@[simp] theorem setConv_store (c : ConvState) (s : State) : (setConv c s).store = s.store := rfl
@[simp] theorem setConv_draws (c : ConvState) (s : State) : (setConv c s).draws = s.draws := rfl

/-! ### `setRes` -/

@[simp] theorem setRes_cfg (x : Byte) (s : State) : (setRes x s).cfg = s.cfg := rfl
@[simp] theorem setRes_lmode (x : Byte) (s : State) : (setRes x s).lmode = s.lmode := rfl
@[simp] theorem setRes_conv (x : Byte) (s : State) : (setRes x s).conv = s.conv := rfl
@[simp] theorem setRes_pres (x : Byte) (s : State) : (setRes x s).pres = s.pres := rfl
@[simp] theorem setRes_res (x : Byte) (s : State) : (setRes x s).res = x := rfl
@[simp] theorem setRes_thr (x : Byte) (s : State) : (setRes x s).thr = s.thr := rfl
@[simp] theorem setRes_devid (x : Byte) (s : State) : (setRes x s).devid = s.devid := rfl
@[simp] theorem setRes_sp (x : Byte) (s : State) : (setRes x s).sp = s.sp := rfl
@[simp] theorem setRes_shreg (x : Byte) (s : State) : (setRes x s).shreg = s.shreg := rfl
@[simp] theorem setRes_acc (x : Byte) (s : State) : (setRes x s).acc = s.acc := rfl
@[simp] theorem setRes_bitcnt (x : Byte) (s : State) : (setRes x s).bitcnt = s.bitcnt := rfl
@[simp] theorem setRes_bytecnt (x : Byte) (s : State) : (setRes x s).bytecnt = s.bytecnt := rfl
@[simp] theorem setRes_smp (x : Byte) (s : State) : (setRes x s).smp = s.smp := rfl
@[simp] theorem setRes_tmr (x : Byte) (s : State) : (setRes x s).tmr = s.tmr := rfl
@[simp] theorem setRes_opr (x : Byte) (s : State) : (setRes x s).opr = s.opr := rfl
@[simp] theorem setRes_argr (x : Byte) (s : State) : (setRes x s).argr = s.argr := rfl
@[simp] theorem setRes_seq (x : Byte) (s : State) : (setRes x s).seq = s.seq := rfl
@[simp] theorem setRes_rstN (x : Byte) (s : State) : (setRes x s).rstN = s.rstN := rfl
@[simp] theorem setRes_trace (x : Byte) (s : State) : (setRes x s).trace = s.trace := rfl
@[simp] theorem setRes_pastTraces (x : Byte) (s : State) : (setRes x s).pastTraces = s.pastTraces := rfl
@[simp] theorem setRes_env (x : Byte) (s : State) : (setRes x s).env = s.env := rfl
@[simp] theorem setRes_host (x : Byte) (s : State) : (setRes x s).host = s.host := rfl
@[simp] theorem setRes_received (x : Byte) (s : State) : (setRes x s).received = s.received := rfl
@[simp] theorem setRes_fahr (x : Byte) (s : State) : (setRes x s).fahr = s.fahr := rfl
@[simp] theorem setRes_cur (x : Byte) (s : State) : (setRes x s).cur = s.cur := rfl
@[simp] theorem setRes_store (x : Byte) (s : State) : (setRes x s).store = s.store := rfl
@[simp] theorem setRes_draws (x : Byte) (s : State) : (setRes x s).draws = s.draws := rfl

/-! ### `setThr` -/

@[simp] theorem setThr_cfg (x : Word) (s : State) : (setThr x s).cfg = s.cfg := rfl
@[simp] theorem setThr_lmode (x : Word) (s : State) : (setThr x s).lmode = s.lmode := rfl
@[simp] theorem setThr_conv (x : Word) (s : State) : (setThr x s).conv = s.conv := rfl
@[simp] theorem setThr_pres (x : Word) (s : State) : (setThr x s).pres = s.pres := rfl
@[simp] theorem setThr_res (x : Word) (s : State) : (setThr x s).res = s.res := rfl
@[simp] theorem setThr_thr (x : Word) (s : State) : (setThr x s).thr = x := rfl
@[simp] theorem setThr_devid (x : Word) (s : State) : (setThr x s).devid = s.devid := rfl
@[simp] theorem setThr_sp (x : Word) (s : State) : (setThr x s).sp = s.sp := rfl
@[simp] theorem setThr_shreg (x : Word) (s : State) : (setThr x s).shreg = s.shreg := rfl
@[simp] theorem setThr_acc (x : Word) (s : State) : (setThr x s).acc = s.acc := rfl
@[simp] theorem setThr_bitcnt (x : Word) (s : State) : (setThr x s).bitcnt = s.bitcnt := rfl
@[simp] theorem setThr_bytecnt (x : Word) (s : State) : (setThr x s).bytecnt = s.bytecnt := rfl
@[simp] theorem setThr_smp (x : Word) (s : State) : (setThr x s).smp = s.smp := rfl
@[simp] theorem setThr_tmr (x : Word) (s : State) : (setThr x s).tmr = s.tmr := rfl
@[simp] theorem setThr_opr (x : Word) (s : State) : (setThr x s).opr = s.opr := rfl
@[simp] theorem setThr_argr (x : Word) (s : State) : (setThr x s).argr = s.argr := rfl
@[simp] theorem setThr_seq (x : Word) (s : State) : (setThr x s).seq = s.seq := rfl
@[simp] theorem setThr_rstN (x : Word) (s : State) : (setThr x s).rstN = s.rstN := rfl
@[simp] theorem setThr_trace (x : Word) (s : State) : (setThr x s).trace = s.trace := rfl
@[simp] theorem setThr_pastTraces (x : Word) (s : State) : (setThr x s).pastTraces = s.pastTraces := rfl
@[simp] theorem setThr_env (x : Word) (s : State) : (setThr x s).env = s.env := rfl
@[simp] theorem setThr_host (x : Word) (s : State) : (setThr x s).host = s.host := rfl
@[simp] theorem setThr_received (x : Word) (s : State) : (setThr x s).received = s.received := rfl
@[simp] theorem setThr_fahr (x : Word) (s : State) : (setThr x s).fahr = s.fahr := rfl
@[simp] theorem setThr_cur (x : Word) (s : State) : (setThr x s).cur = s.cur := rfl
@[simp] theorem setThr_store (x : Word) (s : State) : (setThr x s).store = s.store := rfl
@[simp] theorem setThr_draws (x : Word) (s : State) : (setThr x s).draws = s.draws := rfl

/-! ### `setDevidLo` -/

@[simp] theorem setDevidLo_cfg (x : Word) (s : State) : (setDevidLo x s).cfg = s.cfg := rfl
@[simp] theorem setDevidLo_lmode (x : Word) (s : State) : (setDevidLo x s).lmode = s.lmode := rfl
@[simp] theorem setDevidLo_conv (x : Word) (s : State) : (setDevidLo x s).conv = s.conv := rfl
@[simp] theorem setDevidLo_pres (x : Word) (s : State) : (setDevidLo x s).pres = s.pres := rfl
@[simp] theorem setDevidLo_res (x : Word) (s : State) : (setDevidLo x s).res = s.res := rfl
@[simp] theorem setDevidLo_thr (x : Word) (s : State) : (setDevidLo x s).thr = s.thr := rfl
@[simp] theorem setDevidLo_devid (x : Word) (s : State) :
    (setDevidLo x s).devid = #v[wordByte x 0, wordByte x 1, wordByte x 2, wordByte x 3,
      s.devid[4], s.devid[5], s.devid[6], s.devid[7]] := rfl
@[simp] theorem setDevidLo_sp (x : Word) (s : State) : (setDevidLo x s).sp = s.sp := rfl
@[simp] theorem setDevidLo_shreg (x : Word) (s : State) : (setDevidLo x s).shreg = s.shreg := rfl
@[simp] theorem setDevidLo_acc (x : Word) (s : State) : (setDevidLo x s).acc = s.acc := rfl
@[simp] theorem setDevidLo_bitcnt (x : Word) (s : State) : (setDevidLo x s).bitcnt = s.bitcnt := rfl
@[simp] theorem setDevidLo_bytecnt (x : Word) (s : State) : (setDevidLo x s).bytecnt = s.bytecnt := rfl
@[simp] theorem setDevidLo_smp (x : Word) (s : State) : (setDevidLo x s).smp = s.smp := rfl
@[simp] theorem setDevidLo_tmr (x : Word) (s : State) : (setDevidLo x s).tmr = s.tmr := rfl
@[simp] theorem setDevidLo_opr (x : Word) (s : State) : (setDevidLo x s).opr = s.opr := rfl
@[simp] theorem setDevidLo_argr (x : Word) (s : State) : (setDevidLo x s).argr = s.argr := rfl
@[simp] theorem setDevidLo_seq (x : Word) (s : State) : (setDevidLo x s).seq = s.seq := rfl
@[simp] theorem setDevidLo_rstN (x : Word) (s : State) : (setDevidLo x s).rstN = s.rstN := rfl
@[simp] theorem setDevidLo_trace (x : Word) (s : State) : (setDevidLo x s).trace = s.trace := rfl
@[simp] theorem setDevidLo_pastTraces (x : Word) (s : State) : (setDevidLo x s).pastTraces = s.pastTraces := rfl
@[simp] theorem setDevidLo_env (x : Word) (s : State) : (setDevidLo x s).env = s.env := rfl
@[simp] theorem setDevidLo_host (x : Word) (s : State) : (setDevidLo x s).host = s.host := rfl
@[simp] theorem setDevidLo_received (x : Word) (s : State) : (setDevidLo x s).received = s.received := rfl
@[simp] theorem setDevidLo_fahr (x : Word) (s : State) : (setDevidLo x s).fahr = s.fahr := rfl
@[simp] theorem setDevidLo_cur (x : Word) (s : State) : (setDevidLo x s).cur = s.cur := rfl
@[simp] theorem setDevidLo_store (x : Word) (s : State) : (setDevidLo x s).store = s.store := rfl
@[simp] theorem setDevidLo_draws (x : Word) (s : State) : (setDevidLo x s).draws = s.draws := rfl

/-! ### `setDevidHi` -/

@[simp] theorem setDevidHi_cfg (x : Word) (s : State) : (setDevidHi x s).cfg = s.cfg := rfl
@[simp] theorem setDevidHi_lmode (x : Word) (s : State) : (setDevidHi x s).lmode = s.lmode := rfl
@[simp] theorem setDevidHi_conv (x : Word) (s : State) : (setDevidHi x s).conv = s.conv := rfl
@[simp] theorem setDevidHi_pres (x : Word) (s : State) : (setDevidHi x s).pres = s.pres := rfl
@[simp] theorem setDevidHi_res (x : Word) (s : State) : (setDevidHi x s).res = s.res := rfl
@[simp] theorem setDevidHi_thr (x : Word) (s : State) : (setDevidHi x s).thr = s.thr := rfl
@[simp] theorem setDevidHi_devid (x : Word) (s : State) :
    (setDevidHi x s).devid = #v[s.devid[0], s.devid[1], s.devid[2], s.devid[3],
      wordByte x 0, wordByte x 1, wordByte x 2, wordByte x 3] := rfl
@[simp] theorem setDevidHi_sp (x : Word) (s : State) : (setDevidHi x s).sp = s.sp := rfl
@[simp] theorem setDevidHi_shreg (x : Word) (s : State) : (setDevidHi x s).shreg = s.shreg := rfl
@[simp] theorem setDevidHi_acc (x : Word) (s : State) : (setDevidHi x s).acc = s.acc := rfl
@[simp] theorem setDevidHi_bitcnt (x : Word) (s : State) : (setDevidHi x s).bitcnt = s.bitcnt := rfl
@[simp] theorem setDevidHi_bytecnt (x : Word) (s : State) : (setDevidHi x s).bytecnt = s.bytecnt := rfl
@[simp] theorem setDevidHi_smp (x : Word) (s : State) : (setDevidHi x s).smp = s.smp := rfl
@[simp] theorem setDevidHi_tmr (x : Word) (s : State) : (setDevidHi x s).tmr = s.tmr := rfl
@[simp] theorem setDevidHi_opr (x : Word) (s : State) : (setDevidHi x s).opr = s.opr := rfl
@[simp] theorem setDevidHi_argr (x : Word) (s : State) : (setDevidHi x s).argr = s.argr := rfl
@[simp] theorem setDevidHi_seq (x : Word) (s : State) : (setDevidHi x s).seq = s.seq := rfl
@[simp] theorem setDevidHi_rstN (x : Word) (s : State) : (setDevidHi x s).rstN = s.rstN := rfl
@[simp] theorem setDevidHi_trace (x : Word) (s : State) : (setDevidHi x s).trace = s.trace := rfl
@[simp] theorem setDevidHi_pastTraces (x : Word) (s : State) : (setDevidHi x s).pastTraces = s.pastTraces := rfl
@[simp] theorem setDevidHi_env (x : Word) (s : State) : (setDevidHi x s).env = s.env := rfl
@[simp] theorem setDevidHi_host (x : Word) (s : State) : (setDevidHi x s).host = s.host := rfl
@[simp] theorem setDevidHi_received (x : Word) (s : State) : (setDevidHi x s).received = s.received := rfl
@[simp] theorem setDevidHi_fahr (x : Word) (s : State) : (setDevidHi x s).fahr = s.fahr := rfl
@[simp] theorem setDevidHi_cur (x : Word) (s : State) : (setDevidHi x s).cur = s.cur := rfl
@[simp] theorem setDevidHi_store (x : Word) (s : State) : (setDevidHi x s).store = s.store := rfl
@[simp] theorem setDevidHi_draws (x : Word) (s : State) : (setDevidHi x s).draws = s.draws := rfl

/-! ### `countDraw` -/

@[simp] theorem countDraw_cfg (s : State) : (countDraw s).cfg = s.cfg := rfl
@[simp] theorem countDraw_lmode (s : State) : (countDraw s).lmode = s.lmode := rfl
@[simp] theorem countDraw_conv (s : State) : (countDraw s).conv = s.conv := rfl
@[simp] theorem countDraw_pres (s : State) : (countDraw s).pres = s.pres := rfl
@[simp] theorem countDraw_res (s : State) : (countDraw s).res = s.res := rfl
@[simp] theorem countDraw_thr (s : State) : (countDraw s).thr = s.thr := rfl
@[simp] theorem countDraw_devid (s : State) : (countDraw s).devid = s.devid := rfl
@[simp] theorem countDraw_sp (s : State) : (countDraw s).sp = s.sp := rfl
@[simp] theorem countDraw_shreg (s : State) : (countDraw s).shreg = s.shreg := rfl
@[simp] theorem countDraw_acc (s : State) : (countDraw s).acc = s.acc := rfl
@[simp] theorem countDraw_bitcnt (s : State) : (countDraw s).bitcnt = s.bitcnt := rfl
@[simp] theorem countDraw_bytecnt (s : State) : (countDraw s).bytecnt = s.bytecnt := rfl
@[simp] theorem countDraw_smp (s : State) : (countDraw s).smp = s.smp := rfl
@[simp] theorem countDraw_tmr (s : State) : (countDraw s).tmr = s.tmr := rfl
@[simp] theorem countDraw_opr (s : State) : (countDraw s).opr = s.opr := rfl
@[simp] theorem countDraw_argr (s : State) : (countDraw s).argr = s.argr := rfl
@[simp] theorem countDraw_seq (s : State) : (countDraw s).seq = s.seq := rfl
@[simp] theorem countDraw_rstN (s : State) : (countDraw s).rstN = s.rstN := rfl
@[simp] theorem countDraw_trace (s : State) : (countDraw s).trace = s.trace := rfl
@[simp] theorem countDraw_pastTraces (s : State) : (countDraw s).pastTraces = s.pastTraces := rfl
@[simp] theorem countDraw_env (s : State) : (countDraw s).env = s.env := rfl
@[simp] theorem countDraw_host (s : State) : (countDraw s).host = s.host := rfl
@[simp] theorem countDraw_received (s : State) : (countDraw s).received = s.received := rfl
@[simp] theorem countDraw_fahr (s : State) : (countDraw s).fahr = s.fahr := rfl
@[simp] theorem countDraw_cur (s : State) : (countDraw s).cur = s.cur := rfl
@[simp] theorem countDraw_store (s : State) : (countDraw s).store = s.store := rfl
@[simp] theorem countDraw_draws (s : State) : (countDraw s).draws = s.draws + 1 := rfl

/-! ### `respond` -/

@[simp] theorem respond_cfg (c : RespCode) (d : Word) (s : State) : (respond c d s).cfg = s.cfg := rfl
@[simp] theorem respond_lmode (c : RespCode) (d : Word) (s : State) : (respond c d s).lmode = s.lmode := rfl
@[simp] theorem respond_conv (c : RespCode) (d : Word) (s : State) : (respond c d s).conv = s.conv := rfl
@[simp] theorem respond_pres (c : RespCode) (d : Word) (s : State) : (respond c d s).pres = s.pres := rfl
@[simp] theorem respond_res (c : RespCode) (d : Word) (s : State) : (respond c d s).res = s.res := rfl
@[simp] theorem respond_thr (c : RespCode) (d : Word) (s : State) : (respond c d s).thr = s.thr := rfl
@[simp] theorem respond_devid (c : RespCode) (d : Word) (s : State) : (respond c d s).devid = s.devid := rfl
@[simp] theorem respond_sp (c : RespCode) (d : Word) (s : State) : (respond c d s).sp = s.sp := rfl
@[simp] theorem respond_shreg (c : RespCode) (d : Word) (s : State) : (respond c d s).shreg = s.shreg := rfl
@[simp] theorem respond_acc (c : RespCode) (d : Word) (s : State) : (respond c d s).acc = s.acc := rfl
@[simp] theorem respond_bitcnt (c : RespCode) (d : Word) (s : State) : (respond c d s).bitcnt = s.bitcnt := rfl
@[simp] theorem respond_bytecnt (c : RespCode) (d : Word) (s : State) : (respond c d s).bytecnt = s.bytecnt := rfl
@[simp] theorem respond_smp (c : RespCode) (d : Word) (s : State) : (respond c d s).smp = s.smp := rfl
@[simp] theorem respond_tmr (c : RespCode) (d : Word) (s : State) : (respond c d s).tmr = s.tmr := rfl
@[simp] theorem respond_opr (c : RespCode) (d : Word) (s : State) : (respond c d s).opr = s.opr := rfl
@[simp] theorem respond_argr (c : RespCode) (d : Word) (s : State) : (respond c d s).argr = s.argr := rfl
@[simp] theorem respond_seq (c : RespCode) (d : Word) (s : State) : (respond c d s).seq = .responding ⟨c, d⟩ := rfl
@[simp] theorem respond_rstN (c : RespCode) (d : Word) (s : State) : (respond c d s).rstN = s.rstN := rfl
@[simp] theorem respond_trace (c : RespCode) (d : Word) (s : State) : (respond c d s).trace = s.trace := rfl
@[simp] theorem respond_pastTraces (c : RespCode) (d : Word) (s : State) :
    (respond c d s).pastTraces = s.pastTraces := rfl
@[simp] theorem respond_env (c : RespCode) (d : Word) (s : State) : (respond c d s).env = s.env := rfl
@[simp] theorem respond_host (c : RespCode) (d : Word) (s : State) : (respond c d s).host = s.host := rfl
@[simp] theorem respond_received (c : RespCode) (d : Word) (s : State) : (respond c d s).received = s.received := rfl
@[simp] theorem respond_fahr (c : RespCode) (d : Word) (s : State) : (respond c d s).fahr = s.fahr := rfl
@[simp] theorem respond_cur (c : RespCode) (d : Word) (s : State) : (respond c d s).cur = s.cur := rfl
@[simp] theorem respond_store (c : RespCode) (d : Word) (s : State) : (respond c d s).store = s.store := rfl
@[simp] theorem respond_draws (c : RespCode) (d : Word) (s : State) : (respond c d s).draws = s.draws := rfl

/-! ### `accept` -/

@[simp] theorem accept_cfg (w : CmdWord) (s : State) : (accept w s).cfg = s.cfg := rfl
@[simp] theorem accept_lmode (w : CmdWord) (s : State) : (accept w s).lmode = s.lmode := rfl
@[simp] theorem accept_conv (w : CmdWord) (s : State) : (accept w s).conv = s.conv := rfl
@[simp] theorem accept_pres (w : CmdWord) (s : State) : (accept w s).pres = s.pres := rfl
@[simp] theorem accept_res (w : CmdWord) (s : State) : (accept w s).res = s.res := rfl
@[simp] theorem accept_thr (w : CmdWord) (s : State) : (accept w s).thr = s.thr := rfl
@[simp] theorem accept_devid (w : CmdWord) (s : State) : (accept w s).devid = s.devid := rfl
@[simp] theorem accept_sp (w : CmdWord) (s : State) : (accept w s).sp = s.sp := rfl
@[simp] theorem accept_shreg (w : CmdWord) (s : State) : (accept w s).shreg = s.shreg := rfl
@[simp] theorem accept_acc (w : CmdWord) (s : State) : (accept w s).acc = s.acc := rfl
@[simp] theorem accept_bitcnt (w : CmdWord) (s : State) : (accept w s).bitcnt = s.bitcnt := rfl
@[simp] theorem accept_bytecnt (w : CmdWord) (s : State) : (accept w s).bytecnt = s.bytecnt := rfl
@[simp] theorem accept_smp (w : CmdWord) (s : State) : (accept w s).smp = s.smp := rfl
@[simp] theorem accept_tmr (w : CmdWord) (s : State) : (accept w s).tmr = s.tmr := rfl
@[simp] theorem accept_opr (w : CmdWord) (s : State) : (accept w s).opr = w.extractLsb' 32 8 := rfl
@[simp] theorem accept_argr (w : CmdWord) (s : State) : (accept w s).argr = w.extractLsb' 0 32 := rfl
@[simp] theorem accept_seq (w : CmdWord) (s : State) : (accept w s).seq = .running := rfl
@[simp] theorem accept_rstN (w : CmdWord) (s : State) : (accept w s).rstN = s.rstN := rfl
@[simp] theorem accept_trace (w : CmdWord) (s : State) : (accept w s).trace = s.trace := rfl
@[simp] theorem accept_pastTraces (w : CmdWord) (s : State) : (accept w s).pastTraces = s.pastTraces := rfl
@[simp] theorem accept_env (w : CmdWord) (s : State) : (accept w s).env = s.env := rfl
@[simp] theorem accept_host (w : CmdWord) (s : State) : (accept w s).host = s.host := rfl
@[simp] theorem accept_received (w : CmdWord) (s : State) : (accept w s).received = s.received := rfl
@[simp] theorem accept_fahr (w : CmdWord) (s : State) : (accept w s).fahr = s.fahr := rfl
@[simp] theorem accept_cur (w : CmdWord) (s : State) : (accept w s).cur = s.cur := rfl
@[simp] theorem accept_store (w : CmdWord) (s : State) : (accept w s).store = s.store := rfl
@[simp] theorem accept_draws (w : CmdWord) (s : State) : (accept w s).draws = s.draws := rfl

/-! ### `resetLow` -/

@[simp] theorem resetLow_cfg (s : State) : (resetLow s).cfg = s.cfg := rfl
@[simp] theorem resetLow_lmode (s : State) : (resetLow s).lmode = .rel := rfl
@[simp] theorem resetLow_conv (s : State) : (resetLow s).conv = .idle := rfl
@[simp] theorem resetLow_pres (s : State) : (resetLow s).pres = false := rfl
@[simp] theorem resetLow_res (s : State) : (resetLow s).res = s.res := rfl
@[simp] theorem resetLow_thr (s : State) : (resetLow s).thr = s.thr := rfl
@[simp] theorem resetLow_devid (s : State) : (resetLow s).devid = Vector.replicate 8 0 := rfl
@[simp] theorem resetLow_sp (s : State) : (resetLow s).sp = s.sp := rfl
@[simp] theorem resetLow_shreg (s : State) : (resetLow s).shreg = s.shreg := rfl
@[simp] theorem resetLow_acc (s : State) : (resetLow s).acc = s.acc := rfl
@[simp] theorem resetLow_bitcnt (s : State) : (resetLow s).bitcnt = s.bitcnt := rfl
@[simp] theorem resetLow_bytecnt (s : State) : (resetLow s).bytecnt = s.bytecnt := rfl
@[simp] theorem resetLow_smp (s : State) : (resetLow s).smp = s.smp := rfl
@[simp] theorem resetLow_tmr (s : State) : (resetLow s).tmr = 0 := rfl
@[simp] theorem resetLow_opr (s : State) : (resetLow s).opr = s.opr := rfl
@[simp] theorem resetLow_argr (s : State) : (resetLow s).argr = s.argr := rfl
@[simp] theorem resetLow_seq (s : State) : (resetLow s).seq = .idle := rfl
@[simp] theorem resetLow_rstN (s : State) : (resetLow s).rstN = false := rfl
@[simp] theorem resetLow_trace (s : State) : (resetLow s).trace = [] := rfl
@[simp] theorem resetLow_pastTraces (s : State) : (resetLow s).pastTraces = s.pastTraces ++ [s.trace] := rfl
@[simp] theorem resetLow_env (s : State) : (resetLow s).env = s.env := rfl
@[simp] theorem resetLow_host (s : State) : (resetLow s).host = s.host := rfl
@[simp] theorem resetLow_received (s : State) : (resetLow s).received = s.received := rfl
@[simp] theorem resetLow_fahr (s : State) : (resetLow s).fahr = s.fahr := rfl
@[simp] theorem resetLow_cur (s : State) : (resetLow s).cur = s.cur := rfl
@[simp] theorem resetLow_store (s : State) : (resetLow s).store = s.store := rfl
@[simp] theorem resetLow_draws (s : State) : (resetLow s).draws = s.draws := rfl

end Sys2Proof.Machine
end

