-- ==== Sys2Proof/Laws/HostPort.lean ====
section
/-! SUPPORT. What a transaction of the host is for the eight register commands SAVE and LOAD use, and what SAVE and LOAD are
(spec/45_host_collaborators.md R194, R195): everything they do, so that no later proof unfolds them. -/

namespace Sys2Proof.Machine

theorem cmdReady_iff (s : State) : cmdReady s = true ↔ s.rstN = true ∧ s.seq = .idle := by
  simp [cmdReady]

theorem takeResponse_of_ready {s : State} (h : cmdReady s = true) : takeResponse s = s := by
  unfold takeResponse; rw [((cmdReady_iff s).mp h).2]

/-- One command and its response (spec/30_encoding.md R86): everything a transaction does besides the command's own
effect. -/
theorem transact_of_exec {w : CmdWord} {i : Instr} {s t : State} {r : Response} (hd : decode w = .ok i)
    (ht : exec i { s with opr := opField w, argr := argField w, seq := .running } = .next t)
    (hr : t.seq = .responding r) :
    transact w s = .next { t with seq := .idle, received := t.received ++ [r] } := by
  have run : runWord w s = .next t := by rw [runWord, hd]; exact ht
  simp only [transact, run, andThen, takeResponse, hr]

theorem transact_rdregRes (s : State) :
    transact (encode .rdregRes) s =
      .next { s with opr := 0x11, argr := 0, seq := .idle, received := s.received ++ [⟨.ok, s.res.setWidth 32⟩] } := by
  rw [transact_of_exec (i := .rdregRes) (by decide) rfl rfl]; rfl
theorem transact_rdregThr (s : State) :
    transact (encode .rdregThr) s =
      .next { s with opr := 0x12, argr := 0, seq := .idle, received := s.received ++ [⟨.ok, s.thr⟩] } := by
  rw [transact_of_exec (i := .rdregThr) (by decide) rfl rfl]; rfl
theorem transact_rdregDevidLo (s : State) :
    transact (encode .rdregDevidLo) s =
      .next { s with opr := 0x13, argr := 0, seq := .idle, received := s.received ++ [⟨.ok, devidLo s⟩] } := by
  rw [transact_of_exec (i := .rdregDevidLo) (by decide) rfl rfl]; rfl
theorem transact_rdregDevidHi (s : State) :
    transact (encode .rdregDevidHi) s =
      .next { s with opr := 0x14, argr := 0, seq := .idle, received := s.received ++ [⟨.ok, devidHi s⟩] } := by
  rw [transact_of_exec (i := .rdregDevidHi) (by decide) rfl rfl]; rfl

/-- SAVE with room for it (spec/45_host_collaborators.md R194). -/
theorem save_eq {s : State} (ready : cmdReady s = true) (room : s.cur + 13 ≤ s.cfg.eeSize) :
    save s =
      .next
        { s with
          store :=
            memWrite (memWrite (memWrite s.store s.cur [s.res]) (s.cur + 1) (wordBytes s.thr)) (s.cur + 5)
              (wordBytes (devidLo s) ++ wordBytes (devidHi s))
          cur := s.cur + 13
          opr := 0x14
          argr := 0
          received :=
            s.received ++ [⟨.ok, s.res.setWidth 32⟩, ⟨.ok, s.thr⟩, ⟨.ok, devidLo s⟩, ⟨.ok, devidHi s⟩] } := by
  have has : storeHasRoom s = true := by simp [storeHasRoom, room]
  have idle := ((cmdReady_iff s).mp ready).2
  have low : wordByte (s.res.setWidth 32) 0 = s.res := by generalize s.res = r; decide +revert
  rw [save, if_pos has, transact_rdregRes]
  simp only [andThen, transact_rdregThr, transact_rdregDevidLo, transact_rdregDevidHi, saveField]
  refine congrArg Host.Outcome.next ?_
  rw [← idle]
  simp [lastData, devidLo, devidHi, wordBytes, low]

theorem transact_wrregRes (b : Byte) (s : State) :
    transact (encode (.wrregRes (b.setWidth 32))) s =
      .next { s with opr := 0x21, argr := b.setWidth 32, res := b, seq := .idle, received := s.received ++ [⟨.ok, 0⟩] } := by
  have high : (b.setWidth 32).extractLsb' 8 24 = 0 := by decide +revert
  have low : (b.setWidth 32).extractLsb' 0 8 = b := by decide +revert
  have fields := Laws.fields_encode (.wrregRes (b.setWidth 32))
  have dec : decode (encode (.wrregRes (b.setWidth 32))) = .ok (.wrregRes (b.setWidth 32)) := by
    rw [decode, fields.1, fields.2]
    exact if_pos high
  rw [transact_of_exec (t := { s with opr := 0x21, argr := b.setWidth 32, res := b, seq := .responding ⟨.ok, 0⟩ }) dec ?_ rfl]
  rw [fields.1, fields.2]
  simp only [exec, execWrregRes, Instr.operand, high, low, if_true]
  rfl

theorem transact_wrregThr (x : Word) (s : State) :
    transact (encode (.wrregThr x)) s =
      .next { s with opr := 0x22, argr := x, thr := x, seq := .idle, received := s.received ++ [⟨.ok, 0⟩] } := by
  have fields := Laws.fields_encode (.wrregThr x)
  rw [transact_of_exec (i := .wrregThr x) (by rw [decode, fields.1, fields.2]; rfl) rfl rfl, fields.1, fields.2]; rfl

theorem transact_wrregDevidLo (x : Word) (s : State) :
    transact (encode (.wrregDevidLo x)) s =
      .next
        { setDevidLo x s with opr := 0x23, argr := x, seq := .idle, received := s.received ++ [⟨.ok, 0⟩] } := by
  have fields := Laws.fields_encode (.wrregDevidLo x)
  rw [transact_of_exec (i := .wrregDevidLo x) (by rw [decode, fields.1, fields.2]; rfl) rfl rfl, fields.1, fields.2]; rfl

theorem transact_wrregDevidHi (x : Word) (s : State) :
    transact (encode (.wrregDevidHi x)) s =
      .next
        { setDevidHi x s with opr := 0x24, argr := x, seq := .idle, received := s.received ++ [⟨.ok, 0⟩] } := by
  have fields := Laws.fields_encode (.wrregDevidHi x)
  rw [transact_of_exec (i := .wrregDevidHi x) (by rw [decode, fields.1, fields.2]; rfl) rfl rfl, fields.1, fields.2]; rfl

/-- The bytes of an assembled word. -/
theorem wordByte_wordOfBytes (b0 b1 b2 b3 : Byte) :
    wordByte (wordOfBytes b0 b1 b2 b3) 0 = b0 ∧ wordByte (wordOfBytes b0 b1 b2 b3) 1 = b1 ∧
    wordByte (wordOfBytes b0 b1 b2 b3) 2 = b2 ∧ wordByte (wordOfBytes b0 b1 b2 b3) 3 = b3 := by
  refine ⟨?_, ?_, ?_, ?_⟩ <;>
    (apply BitVec.eq_of_getLsbD_eq
     intro i hi
     simp only [wordByte, wordOfBytes, BitVec.getLsbD_extractLsb', BitVec.getLsbD_append, hi, decide_true, Bool.true_and])
  · simp [hi]
  · simp [hi, show ¬ 8 * 1 + i < 8 by omega, show 8 * 1 + i - 8 = i by omega]
  · simp [hi, show ¬ 8 * 2 + i < 8 by omega, show ¬ 8 * 2 + i - 8 < 8 by omega, show 8 * 2 + i - 8 - 8 = i by omega]
  · simp [hi, show ¬ 8 * 3 + i < 8 by omega, show ¬ 8 * 3 + i - 8 < 8 by omega,
      show ¬ 8 * 3 + i - 8 - 8 < 8 by omega, show 8 * 3 + i - 8 - 8 - 8 = i by omega]

/-- LOAD with room for it (R195). -/
theorem load_eq {s : State} (ready : cmdReady s = true) (room : s.cur + 13 ≤ s.cfg.eeSize) :
    load s =
      .next
        { s with
          res := storeRead s.store s.cur
          thr :=
            wordOfBytes (storeRead s.store (s.cur + 1)) (storeRead s.store (s.cur + 2))
              (storeRead s.store (s.cur + 3)) (storeRead s.store (s.cur + 4))
          devid :=
            #v[storeRead s.store (s.cur + 5), storeRead s.store (s.cur + 6), storeRead s.store (s.cur + 7),
              storeRead s.store (s.cur + 8), storeRead s.store (s.cur + 9), storeRead s.store (s.cur + 10),
              storeRead s.store (s.cur + 11), storeRead s.store (s.cur + 12)]
          cur := s.cur + 13
          opr := 0x24
          argr :=
            wordOfBytes (storeRead s.store (s.cur + 9)) (storeRead s.store (s.cur + 10))
              (storeRead s.store (s.cur + 11)) (storeRead s.store (s.cur + 12))
          received := s.received ++ [⟨.ok, 0⟩, ⟨.ok, 0⟩, ⟨.ok, 0⟩, ⟨.ok, 0⟩] } := by
  have has : storeHasRoom s = true := by simp [storeHasRoom, room]
  have idle := ((cmdReady_iff s).mp ready).2
  rw [load, if_pos has]
  simp only
  rw [transact_wrregRes]
  simp only [andThen, transact_wrregThr, transact_wrregDevidLo, transact_wrregDevidHi]
  refine congrArg Host.Outcome.next ?_
  rw [← idle]
  simp [memRead, wordOfList, setDevidLo, setDevidHi, wordByte_wordOfBytes]

/-- A word is assembled from its bytes. -/
theorem wordOfBytes_wordByte (x : Word) :
    wordOfBytes (wordByte x 0) (wordByte x 1) (wordByte x 2) (wordByte x 3) = x := by
  apply BitVec.eq_of_getLsbD_eq
  intro i hi
  simp only [wordOfBytes, wordByte, BitVec.getLsbD_append, BitVec.getLsbD_extractLsb']
  by_cases h1 : i < 8
  · simp [h1]
  by_cases h2 : i < 16
  · simp [h1, show i - 8 < 8 by omega]
    rw [show 8 + (i - 8) = i by omega]
  by_cases h3 : i < 24
  · simp [h1, show ¬ i - 8 < 8 by omega, show i - 8 - 8 < 8 by omega]
    rw [show 16 + (i - 8 - 8) = i by omega]
  · simp [h1, show ¬ i - 8 < 8 by omega, show ¬ i - 8 - 8 < 8 by omega, show i - 8 - 8 - 8 < 8 by omega]
    rw [show 24 + (i - 8 - 8 - 8) = i by omega]

end Sys2Proof.Machine
end

