-- ==== Sys2Proof/Laws/LineTrace.lean ====
section
/-! SUPPORT. Laws of the line trace: concatenation, durations, samples, end modes of the abbreviations. -/

namespace Sys2Proof.Machine

@[simp] theorem duration_append (a b : Trace) : duration (a ++ b) = duration a + duration b := by
  induction a with
  | nil => simp [duration]
  | cons e a ih => cases e <;> simp [duration, ih, Nat.add_assoc]

@[simp] theorem samples_append (a b : Trace) : samples (a ++ b) = samples a ++ samples b := by
  induction a with
  | nil => rfl
  | cons e a ih => cases e <;> simp [samples, ih]

@[simp] theorem endMode_append (m : LineMode) (a b : Trace) :
    endMode m (a ++ b) = endMode (endMode m a) b := by
  induction a generalizing m with
  | nil => rfl
  | cons e a ih => cases e <;> simp [endMode, ih]

/-- Merging never changes how long a trace lasts. -/
theorem duration_normTrace (a : Trace) : duration (normTrace a) = duration a := by
  have cons : ∀ (e : LineEvent) (tr : Trace), duration (consEvent e tr) = duration (e :: tr) := by
    intro e tr
    cases e with
    | drive _ => rfl
    | sample _ => rfl
    | wait n =>
      cases tr with
      | nil => by_cases h : n = 0 <;> simp [consEvent, duration, h]
      | cons e' tr =>
        cases e' with
        | wait _ => simp [consEvent, duration, Nat.add_assoc]
        | drive _ => by_cases h : n = 0 <;> simp [consEvent, duration, h]
        | sample _ => by_cases h : n = 0 <;> simp [consEvent, duration, h]
  induction a with
  | nil => rfl
  | cons e a ih =>
    rw [normTrace, cons]
    cases e <;> simp [duration, ih]

/-! ### Durations -/

@[simp] theorem duration_traceRST (cfg : Config) (s : Bool) :
    duration (traceRST cfg s) = cfg.tRstl + cfg.tPds + cfg.tRstrem := by
  cases s <;> simp [traceRST, duration] <;> omega

theorem duration_traceW (cfg : Config) (b : Bool) (h : cfg.tLow ≤ cfg.tSlot) :
    duration (traceW cfg b) = cfg.tSlot + cfg.tRec := by
  cases b <;> simp [traceW, duration] <;> omega

@[simp] theorem duration_traceR (cfg : Config) (s : Bool) :
    duration (traceR cfg s) = cfg.tLow + cfg.tRds + cfg.tRdrem := by
  simp [traceR, traceROpen, duration]; omega

theorem duration_traceSlots (cfg : Config) {w : Nat} (v : BitVec w) (n i : Nat)
    (h : cfg.tLow ≤ cfg.tSlot) :
    duration (traceSlots cfg v n i) = n * (cfg.tSlot + cfg.tRec) := by
  induction n generalizing i with
  | zero => simp [traceSlots, duration]
  | succ n ih => rw [traceSlots, duration_append, duration_traceW cfg _ h, ih, Nat.succ_mul]; omega

theorem duration_traceReads (cfg : Config) {w : Nat} (v : BitVec w) (n i : Nat) :
    duration (traceReads cfg v n i) = n * (cfg.tLow + cfg.tRds + cfg.tRdrem) := by
  induction n generalizing i with
  | zero => simp [traceReads, duration]
  | succ n ih => rw [traceReads, duration_append, duration_traceR, ih, Nat.succ_mul]; omega

theorem duration_traceRBs (cfg : Config) (vs : List Byte) :
    duration (traceRBs cfg vs) = vs.length * (8 * (cfg.tLow + cfg.tRds + cfg.tRdrem)) := by
  induction vs with
  | nil => simp [traceRBs, duration]
  | cons v vs ih =>
    rw [traceRBs, duration_append, ih, traceRB, duration_traceReads, List.length_cons]
    ring

/-! ### Samples -/

@[simp] theorem samples_traceRST (cfg : Config) (s : Bool) : samples (traceRST cfg s) = [s] := by
  cases s <;> rfl

@[simp] theorem samples_traceSlots (cfg : Config) {w : Nat} (v : BitVec w) (n i : Nat) :
    samples (traceSlots cfg v n i) = [] := by
  induction n generalizing i with
  | zero => rfl
  | succ n ih =>
    rw [traceSlots, samples_append, ih]
    cases v.getLsbD i <;> rfl

theorem samples_traceReads_length (cfg : Config) {w : Nat} (v : BitVec w) (n i : Nat) :
    (samples (traceReads cfg v n i)).length = n := by
  induction n generalizing i with
  | zero => rfl
  | succ n ih =>
    rw [traceReads, samples_append, List.length_append, ih]
    simp [traceR, traceROpen, samples]; omega

theorem samples_traceRBs_length (cfg : Config) (vs : List Byte) :
    (samples (traceRBs cfg vs)).length = 8 * vs.length := by
  induction vs with
  | nil => rfl
  | cons v vs ih =>
    rw [traceRBs, samples_append, List.length_append, ih, traceRB, samples_traceReads_length,
      List.length_cons]
    omega

/-! ### End modes -/

@[simp] theorem endMode_traceRST (cfg : Config) (m : LineMode) (s : Bool) :
    endMode m (traceRST cfg s) = if s then .rel else .high := by
  cases s <;> rfl

@[simp] theorem endMode_traceW (cfg : Config) (m : LineMode) (b : Bool) :
    endMode m (traceW cfg b) = .rel := by
  cases b <;> rfl

/-- A bit slot leaves the line released, whatever it found (spec/40_bit_signaling.md R111). -/
theorem endMode_traceSlots (cfg : Config) {w : Nat} (m : LineMode) (v : BitVec w) (n i : Nat) :
    endMode m (traceSlots cfg v (n + 1) i) = .rel := by
  induction n generalizing m i with
  | zero => simp [traceSlots]
  | succ n ih => rw [traceSlots, endMode_append, ih]

theorem endMode_traceReads (cfg : Config) {w : Nat} (m : LineMode) (v : BitVec w) (n i : Nat) :
    endMode m (traceReads cfg v (n + 1) i) = .rel := by
  induction n generalizing m i with
  | zero => simp [traceReads, traceR, traceROpen, endMode]
  | succ n ih => rw [traceReads, endMode_append, ih]

theorem endMode_traceRBs (cfg : Config) (m : LineMode) (v : Byte) (vs : List Byte) :
    endMode m (traceRBs cfg (v :: vs)) = .rel := by
  induction vs generalizing m v with
  | nil => simp [traceRBs, traceRB, endMode_traceReads]
  | cons v' vs ih => rw [traceRBs, endMode_append, ih]

/-! ### Slots -/

/-- The slots of a pattern are those of its first `n` bits and then those of the rest. -/
theorem traceSlots_add (cfg : Config) {w : Nat} (v : BitVec w) (n m i : Nat) :
    traceSlots cfg v (n + m) i = traceSlots cfg v n i ++ traceSlots cfg v m (i + n) := by
  induction n generalizing i with
  | zero => simp [traceSlots]
  | succ n ih =>
    rw [Nat.succ_add, traceSlots, ih, traceSlots, List.append_assoc]
    congr 3
    omega

/-- Slots depend on the bits they send and on nothing else. -/
theorem traceSlots_congr (cfg : Config) {w w' : Nat} (v : BitVec w) (v' : BitVec w') (n i i' : Nat)
    (h : ∀ k, k < n → v.getLsbD (i + k) = v'.getLsbD (i' + k)) :
    traceSlots cfg v n i = traceSlots cfg v' n i' := by
  induction n generalizing i i' with
  | zero => rfl
  | succ n ih =>
    rw [traceSlots, traceSlots, show v.getLsbD i = v'.getLsbD i' from h 0 (Nat.succ_pos n),
      ih (i + 1) (i' + 1)]
    intro k hk
    have := h (k + 1) (by omega)
    rwa [show i + (k + 1) = i + 1 + k by omega, show i' + (k + 1) = i' + 1 + k by omega] at this

theorem traceReads_congr (cfg : Config) {w w' : Nat} (v : BitVec w) (v' : BitVec w') (n i i' : Nat)
    (h : ∀ k, k < n → v.getLsbD (i + k) = v'.getLsbD (i' + k)) :
    traceReads cfg v n i = traceReads cfg v' n i' := by
  induction n generalizing i i' with
  | zero => rfl
  | succ n ih =>
    rw [traceReads, traceReads, show v.getLsbD i = v'.getLsbD i' from h 0 (Nat.succ_pos n),
      ih (i + 1) (i' + 1)]
    intro k hk
    have := h (k + 1) (by omega)
    rwa [show i + (k + 1) = i + 1 + k by omega, show i' + (k + 1) = i' + 1 + k by omega] at this

/-- A trace is cut to a prefix of itself, or to one with its last wait shortened. -/
theorem duration_cutTrace_le (events micros : Nat) (tr : Trace) :
    duration (cutTrace events micros tr) ≤ duration tr := by
  have whole : duration tr = duration (tr.take events) + duration (tr.drop events) := by
    rw [← duration_append, List.take_append_drop]
  unfold cutTrace
  split
  · next n rest h =>
    rw [whole, h]
    simp [duration]
  · omega

end Sys2Proof.Machine
end

