-- ==== Sys2Proof/Laws/Micro.lean ====
section
/-! SUPPORT. One equation per micro-operation, saying everything it does to the state (spec/40_bit_signaling.md R106, R108,
R110; spec/41_byte_framing.md R130 to R132; spec/42_session.md R141, R146). Later proofs cite these and never unfold the
operations. -/

namespace Sys2Proof.Machine

theorem answerAt_of_script {s : State} {e : Bool} {es : List Bool} (tr : Trace) (h : s.env = e :: es) :
    answerAt s tr = e := by
  simp [answerAt, envAnswer, h]

/-- A sample in REL mode reads the environment's answer (spec/40_bit_signaling.md R103). -/
theorem sample_eq_of_rel {s : State} (h : s.lmode = .rel) :
    sample s =
      { s with
        smp := envAnswer s
        trace := s.trace ++ [.sample (envAnswer s)]
        env := s.env.tail
        draws := s.draws + 1 } := by
  simp [sample, sampleValue, level, h]

theorem presenceReset_eq (s : State) :
    presenceReset s =
      { s with
        lmode := if presenceAnswer s then .rel else .high
        pres := !presenceAnswer s
        smp := presenceAnswer s
        tmr := 0
        trace := s.trace ++ traceRST s.cfg (presenceAnswer s)
        env := s.env.tail
        draws := s.draws + 1 } := by
  have e : envAnswer (delay s.cfg.tPds (line .rel (delay s.cfg.tRstl (line .low s)))) = presenceAnswer s := by
    simp [presenceAnswer, answerAt, envAnswer]
  rw [presenceReset, sample_eq_of_rel (by rfl)]
  simp only [line_cfg, delay_cfg, e]
  cases presenceAnswer s <;> simp [line, delay, traceRST, presOf]

theorem writeBitSlot_eq (b : Bool) (s : State) :
    writeBitSlot b s = { s with lmode := .rel, tmr := 0, trace := s.trace ++ traceW s.cfg b } := by
  cases b <;> simp [writeBitSlot, line, delay, traceW]

theorem readBitSlot_eq (s : State) :
    readBitSlot s =
      { s with
        lmode := .rel
        tmr := 0
        smp := readAnswer s
        trace := s.trace ++ traceR s.cfg (readAnswer s)
        env := s.env.tail
        draws := s.draws + 1 } := by
  have e : envAnswer (delay s.cfg.tRds (line .rel (delay s.cfg.tLow (line .low s)))) = readAnswer s := by
    simp [readAnswer, answerAt, envAnswer, traceROpen]
  rw [readBitSlot, sample_eq_of_rel (by rfl)]
  simp only [line_cfg, delay_cfg, e]
  simp [line, delay, traceR, traceROpen]

end Sys2Proof.Machine
end

