-- ==== Sys2Proof/Laws/Serializer.lean ====
section
/-! SUPPORT. One equation per operation of the byte serializer (spec/41_byte_framing.md R130 to R132), and of the
nine-byte read of `READ_TEMP` (spec/42_session.md R146). -/

namespace Sys2Proof.Machine

@[simp] theorem byteBits_length (v : Byte) : (byteBits v).length = 8 := by simp [byteBits]

/-! ### Transmission -/

theorem shiftOutByte_eq (n : Nat) (s : State) :
    shiftOutByte (n + 1) s =
      { s with
        lmode := .rel
        tmr := 0
        shreg := (s.shreg.extractLsb' 8 8 ++ ((s.shreg.extractLsb' 0 8) >>> (n + 1)) : BitVec (8 + 8))
        bitcnt := s.bitcnt - BitVec.ofNat 5 (n + 1)
        trace := s.trace ++ traceSlots s.cfg (s.shreg.extractLsb' 0 8) (n + 1) 0 } := by
  have bit0 : ∀ x : BitVec 16, (x.extractLsb' 0 8).getLsbD 0 = x.getLsbD 0 := fun x => by simp
  induction n generalizing s with
  | zero => simp [shiftOutByte, writeBitSlot_eq, traceSlots]
  | succ n ih =>
    rw [shiftOutByte, ih]
    simp only [writeBitSlot_eq, BitVec.extractLsb'_append_eq_left, BitVec.extractLsb'_append_eq_right,
      List.append_assoc, ← BitVec.shiftRight_add]
    congr 1
    · rw [Nat.add_comm 1 (n + 1)]
    · rw [BitVec.sub_sub, show (1 : BitVec 5) = BitVec.ofNat 5 1 from rfl, ← BitVec.ofNat_add,
        Nat.add_comm 1 (n + 1)]
    · conv_rhs => rw [traceSlots, bit0]
      congr 2
      exact traceSlots_congr _ _ _ _ _ _ fun k _ => by simp [Nat.add_comm]

/-- `writeByte(v)`: 8 slots, bit 0 first, and the low half of `SHREG` is left zero (R130). -/
theorem writeByte_eq (v : Byte) (s : State) :
    writeByte v s =
      { s with
        lmode := .rel
        tmr := 0
        shreg := (s.shreg.extractLsb' 8 8 ++ 0#8 : BitVec (8 + 8))
        bitcnt := 0
        trace := s.trace ++ traceWB s.cfg v } := by
  rw [writeByte, shiftOutByte_eq 7]
  simp only [BitVec.extractLsb'_append_eq_left, BitVec.extractLsb'_append_eq_right]
  rw [BitVec.ushiftRight_eq_zero (x := v) (Nat.le_refl 8)]
  rfl

theorem shiftOut16_eq (n : Nat) (s : State) :
    shiftOut16 (n + 1) s =
      { s with
        lmode := .rel
        tmr := 0
        shreg := s.shreg >>> (n + 1)
        bitcnt := s.bitcnt - BitVec.ofNat 5 (n + 1)
        trace := s.trace ++ traceSlots s.cfg s.shreg (n + 1) 0 } := by
  induction n generalizing s with
  | zero => simp [shiftOut16, writeBitSlot_eq, traceSlots]
  | succ n ih =>
    rw [shiftOut16, ih]
    simp only [writeBitSlot_eq, List.append_assoc, ← BitVec.shiftRight_add]
    congr 1
    · rw [Nat.add_comm 1 (n + 1)]
    · rw [BitVec.sub_sub, show (1 : BitVec 5) = BitVec.ofNat 5 1 from rfl, ← BitVec.ofNat_add,
        Nat.add_comm 1 (n + 1)]
    · conv_rhs => rw [traceSlots]
      congr 2
      exact traceSlots_congr _ _ _ _ _ _ fun k _ => by simp [Nat.add_comm]

/-- `writeBits16(v)`: 16 slots, bit 0 first, and `SHREG` is left zero (R132). -/
theorem writeBits16_eq (v : BitVec 16) (s : State) :
    writeBits16 v s =
      { s with
        lmode := .rel
        tmr := 0
        shreg := 0
        bitcnt := 0
        trace := s.trace ++ traceW16 s.cfg v } := by
  rw [writeBits16, shiftOut16_eq 15]
  simp only [BitVec.ushiftRight_eq_zero (x := v) (Nat.le_refl 16)]
  rfl

/-! ### Reception -/

/-- The bit `b` shifted to position `i` of a byte. -/
theorem getLsbD_bitAt (b : Bool) (i k : Nat) :
    ((BitVec.ofBool b).setWidth 8 <<< i : Byte).getLsbD k =
      (decide (k < 8) && decide (k = i) && b) := by
  by_cases hk : k < 8 <;> by_cases hi : k < i <;> by_cases he : k = i <;> simp [hk, hi, he]
  all_goals omega

/-- One slot of `readByte`: bit `i` of the accumulator is the bit that arrives, the others stay. -/
theorem getLsbD_acc_or (acc : Byte) (b : Bool) (i k : Nat) (hi : i < 8) (clear : acc.getLsbD i = false) :
    (acc ||| ((BitVec.ofBool b).setWidth 8 <<< i)).getLsbD k = if k = i then b else acc.getLsbD k := by
  rw [BitVec.getLsbD_or, getLsbD_bitAt]
  split
  · next h => subst h; rw [clear]; simp [hi]
  · next h => simp [h]

/-- `n + 1` slots of `readByte`, the first for bit `i`: the accumulator keeps the bits below `i`, and the trace shows the
bits that arrive. -/
theorem shiftIn_eq (n i : Nat) (s : State) (fits : i + n < 8)
    (clear : ∀ k, i ≤ k → s.acc.getLsbD k = false) :
    ∃ v : Byte,
      shiftIn (n + 1) i s =
        { s with
          lmode := .rel
          tmr := 0
          smp := v.getLsbD (i + n)
          acc := v
          bitcnt := s.bitcnt - BitVec.ofNat 5 (n + 1)
          trace := s.trace ++ traceReads s.cfg v (n + 1) i
          env := s.env.drop (n + 1)
          draws := s.draws + (n + 1) } ∧
      (∀ k, k < i → v.getLsbD k = s.acc.getLsbD k) ∧
      ∀ (x : Byte) (rest : List Bool),
        s.env = (List.range' i (n + 1)).map x.getLsbD ++ rest →
          ∀ k, i ≤ k → k ≤ i + n → v.getLsbD k = x.getLsbD k := by
  induction n generalizing i s with
  | zero =>
    have bits := fun k => getLsbD_acc_or s.acc (readAnswer s) i k (by omega) (clear i (Nat.le_refl i))
    refine ⟨s.acc ||| ((BitVec.ofBool (readAnswer s)).setWidth 8 <<< i), ?_, ?_, ?_⟩
    · simp [shiftIn, readBitSlot_eq, traceReads, bits]
    · intro k hk
      rw [bits, if_neg (by omega)]
    · intro x rest h k hk hk'
      rw [bits, if_pos (by omega), readAnswer, answerAt_of_script _ (by simpa using h),
        show k = i by omega]
  | succ n ih =>
    have bits := fun k => getLsbD_acc_or s.acc (readAnswer s) i k (by omega) (clear i (Nat.le_refl i))
    obtain ⟨v, eq, below, script⟩ := ih (i + 1)
      { readBitSlot s with
        acc := s.acc ||| ((BitVec.ofBool (readAnswer s)).setWidth 8 <<< i), bitcnt := s.bitcnt - 1 }
      (by omega) (fun k hk => by
        show (s.acc ||| _).getLsbD k = _
        rw [bits, if_neg (by omega), clear k (by omega)])
    have vi : v.getLsbD i = readAnswer s := by
      rw [below i (by omega)]
      show (s.acc ||| _).getLsbD i = _
      rw [bits, if_pos rfl]
    refine ⟨v, ?_, ?_, ?_⟩
    · have step : shiftIn (n + 1 + 1) i s = shiftIn (n + 1) (i + 1)
          { readBitSlot s with
            acc := s.acc ||| ((BitVec.ofBool (readAnswer s)).setWidth 8 <<< i), bitcnt := s.bitcnt - 1 } := by
        rw [shiftIn, readBitSlot_eq]
      rw [step, eq]
      simp only [readBitSlot_eq, List.append_assoc]
      congr 1
      · rw [BitVec.sub_sub, show (1 : BitVec 5) = BitVec.ofNat 5 1 from rfl, ← BitVec.ofNat_add,
          Nat.add_comm 1 (n + 1)]
      · rw [show i + 1 + n = i + (n + 1) by omega]
      · conv_rhs => rw [traceReads, vi]
      · rw [List.drop_tail]
      · omega
    · intro k hk
      rw [below k (by omega)]
      show (s.acc ||| _).getLsbD k = _
      rw [bits, if_neg (by omega)]
    · intro x rest h k hk hk'
      rw [List.range'_succ, List.map_cons, List.cons_append] at h
      by_cases he : k = i
      · rw [he, vi, readAnswer, answerAt_of_script _ h]
      · refine script x rest ?_ k (by omega) (by omega)
        rw [readBitSlot_eq]
        simp [h]

/-- `readByte()` (R131): eight answers of the environment, the first one bit 0; `ACC` holds the byte, and the trace shows
it. -/
theorem readByte_eq (s : State) :
    readByte s =
      { s with
        lmode := .rel
        tmr := 0
        smp := (readByte s).acc.getLsbD 7
        acc := (readByte s).acc
        bitcnt := 0
        trace := s.trace ++ traceRB s.cfg (readByte s).acc
        env := s.env.drop 8
        draws := s.draws + 8 } := by
  obtain ⟨v, eq, -, -⟩ := shiftIn_eq 7 0 { s with acc := 0, bitcnt := 8 } (by omega) (by simp)
  have acc : (readByte s).acc = v := by rw [readByte, eq]
  rw [acc, readByte, eq]
  simp only [traceRB, Nat.zero_add]
  congr 1

/-- If the environment answers with the bits of `x`, bit 0 first, the byte read is `x`. -/
theorem readByte_of_script (s : State) (x : Byte) (rest : List Bool) (h : s.env = byteBits x ++ rest) :
    (readByte s).acc = x := by
  obtain ⟨v, eq, -, script⟩ := shiftIn_eq 7 0 { s with acc := 0, bitcnt := 8 } (by omega) (by simp)
  have acc : (readByte s).acc = v := by rw [readByte, eq]
  rw [acc]
  apply BitVec.eq_of_getLsbD_eq
  intro k hk
  exact script x rest (by rw [h, byteBits, List.range_eq_range']) k (by omega) (by omega)

end Sys2Proof.Machine
end

