-- ==== Sys2Proof/Laws/Scratchpad.lean ====
section
/-! SUPPORT. The nine-byte read of `READ_TEMP` (spec/42_session.md R146) and the command sequence in front of it (R141). -/

namespace Sys2Proof.Machine

/-- The bytes from index `i` on begin with byte `i`. -/
theorem drop_toList (v : Vector Byte 9) (i : Nat) (h : i < 9) :
    v.toList.drop i = v[i] :: v.toList.drop (i + 1) := by
  rw [List.drop_eq_getElem_cons (by simpa using h)]; simp

/-- One byte of the scratchpad read, everything it does. -/
theorem readBytes_succ (n i : Nat) (s : State) :
    readBytes (n + 1) i s =
      readBytes n (i + 1)
        { s with
          lmode := .rel
          tmr := 0
          smp := (readByte s).acc.getLsbD 7
          acc := (readByte s).acc
          bitcnt := 0
          bytecnt := s.bytecnt + 1
          sp := s.sp.setIfInBounds i (readByte s).acc
          trace := s.trace ++ traceRB s.cfg (readByte s).acc
          env := s.env.drop 8
          draws := s.draws + 8 } := by
  rw [readBytes]
  generalize h : (readByte s).acc = v
  rw [readByte_eq, h]

/-- `n + 1` bytes read, the first to index `i`: the trace shows the bytes that arrive, in order. -/
theorem readBytes_eq (n i : Nat) (s : State) (fits : i + n < 9) :
    ∃ sp' : Vector Byte 9,
      readBytes (n + 1) i s =
        { s with
          lmode := .rel
          tmr := 0
          smp := (sp'[i + n]).getLsbD 7
          acc := sp'[i + n]
          bitcnt := 0
          bytecnt := s.bytecnt + BitVec.ofNat 4 (n + 1)
          sp := sp'
          trace := s.trace ++ traceRBs s.cfg ((sp'.toList.drop i).take (n + 1))
          env := s.env.drop (8 * (n + 1))
          draws := s.draws + 8 * (n + 1) } ∧
      (∀ k, (h : k < 9) → k < i → sp'[k] = s.sp[k]) ∧
      ∀ (vs : List Byte) (rest : List Bool),
        vs.length = n + 1 → s.env = bytesBits vs ++ rest → (sp'.toList.drop i).take (n + 1) = vs := by
  induction n generalizing i s with
  | zero =>
    have hi : i < 9 := by omega
    have one : ∀ v : Byte, ((s.sp.setIfInBounds i v).toList.drop i).take (0 + 1) = [v] := fun v => by
      rw [drop_toList _ i hi, List.take_succ_cons, List.take_zero, Vector.getElem_setIfInBounds_self]
    refine ⟨s.sp.setIfInBounds i (readByte s).acc, ?_, ?_, ?_⟩
    · rw [readBytes_succ, readBytes, one]
      simp [traceRBs]
    · intro k hk hki
      rw [Vector.getElem_setIfInBounds_ne]
      omega
    · intro vs rest hl he
      match vs, hl with
      | [v], _ =>
        rw [bytesBits, bytesBits, List.append_nil] at he
        rw [one, readByte_of_script s v rest he]
  | succ n ih =>
    have hi : i < 9 := by omega
    rw [readBytes_succ]
    generalize hv : (readByte s).acc = v
    obtain ⟨sp', eq, below, script⟩ := ih (i + 1)
      { s with
        lmode := .rel, tmr := 0, smp := v.getLsbD 7, acc := v, bitcnt := 0, bytecnt := s.bytecnt + 1
        sp := s.sp.setIfInBounds i v, trace := s.trace ++ traceRB s.cfg v, env := s.env.drop 8
        draws := s.draws + 8 } (by omega)
    have at_i : sp'[i] = v := by
      rw [below i hi (Nat.lt_succ_self i)]
      simp
    refine ⟨sp', ?_, ?_, ?_⟩
    · rw [eq, drop_toList _ i hi]
      simp only [List.take_succ_cons, traceRBs, at_i, List.append_assoc, List.drop_drop]
      congr 1
      · simp only [show i + 1 + n = i + (n + 1) by omega]
      · rw [BitVec.add_assoc, show (1 : BitVec 4) = BitVec.ofNat 4 1 from rfl, ← BitVec.ofNat_add,
          Nat.add_comm 1 (n + 1)]
      · simp only [show i + 1 + n = i + (n + 1) by omega]
      · rw [show 8 + 8 * (n + 1) = 8 * (n + 1 + 1) by omega]
      · omega
    · intro k hk hki
      rw [below k hk (by omega), Vector.getElem_setIfInBounds_ne]
      omega
    · intro vs rest hl he
      match vs, hl with
      | x :: xs, hl =>
        rw [bytesBits, List.append_assoc] at he
        have hx : v = x := by rw [← hv, readByte_of_script s x _ he]
        rw [drop_toList _ i hi, List.take_succ_cons, at_i, hx]
        congr 1
        refine script xs rest (by simpa using hl) ?_
        rw [he]
        simp

/-- `SP_LEN` reads are nine (spec/00_scope.md R7). -/
theorem readScratchpad_nine (s : State) : readScratchpad s = readBytes 9 0 { s with bytecnt := 0 } := by
  rw [readScratchpad, s.cfg.spLen_val]

/-- The nine reads of `READ_TEMP` (R146): everything they do; the trace shows the nine bytes. -/
theorem readScratchpad_eq (s : State) :
    readScratchpad s =
      { s with
        lmode := .rel
        tmr := 0
        smp := ((readScratchpad s).sp[8]).getLsbD 7
        acc := (readScratchpad s).sp[8]
        bitcnt := 0
        bytecnt := 9
        sp := (readScratchpad s).sp
        trace := s.trace ++ traceRBs s.cfg (readScratchpad s).sp.toList
        env := s.env.drop 72
        draws := s.draws + 72 } := by
  obtain ⟨sp', eq, -, -⟩ := readBytes_eq 8 0 { s with bytecnt := 0 } (by omega)
  have all : (sp'.toList.drop 0).take 9 = sp'.toList := by simp
  have sp : (readScratchpad s).sp = sp' := by rw [readScratchpad_nine, eq]
  rw [sp, readScratchpad_nine, eq, all]
  congr 1

/-- If the environment answers with the bits of nine bytes, those are the bytes read. -/
theorem readScratchpad_of_script (s : State) (vs : Vector Byte 9) (rest : List Bool)
    (h : s.env = bytesBits vs.toList ++ rest) : (readScratchpad s).sp = vs := by
  obtain ⟨sp', eq, -, script⟩ := readBytes_eq 8 0 { s with bytecnt := 0 } (by omega)
  have all : (sp'.toList.drop 0).take 9 = sp'.toList := by simp
  have sp : (readScratchpad s).sp = sp' := by rw [readScratchpad_nine, eq]
  have := script vs.toList rest (by simp) h
  rw [all] at this
  rw [sp]
  exact Vector.toList_inj.mp this

/-- `presenceReset()` and one command byte (spec/42_session.md R141). -/
theorem commandSequence_eq (c : Byte) (s : State) :
    commandSequence c s =
      { s with
        lmode := .rel
        pres := !presenceAnswer s
        smp := presenceAnswer s
        tmr := 0
        shreg := (s.shreg.extractLsb' 8 8 ++ 0#8 : BitVec (8 + 8))
        bitcnt := 0
        trace := s.trace ++ traceRST s.cfg (presenceAnswer s) ++ traceWB s.cfg c
        env := s.env.tail
        draws := s.draws + 1 } := by
  rw [commandSequence, presenceReset_eq, writeByte_eq]

end Sys2Proof.Machine
end

