-- ==== Sys2Proof/Laws/Store.lean ====
section
/-! SUPPORT. Laws of the persistence store: reads after writes, and the canonical form is kept. -/

namespace Sys2Proof.Machine

/-- A byte written is the byte read there; every other address keeps its byte. -/
theorem storeGet_storeWrite (m : Memory) (a k : Nat) (b : Byte) :
    storeGet (storeWrite m a b) k = if a = k then some b else storeGet m k := by
  induction m with
  | nil => simp [storeWrite, storeGet]
  | cons c m ih =>
    obtain ⟨j, c⟩ := c
    unfold storeWrite
    split
    · simp [storeGet]
    · split
      · next h => subst h; by_cases hk : a = k <;> simp [storeGet, hk]
      · by_cases hj : j = k
        · subst hj
          simp [storeGet]
          omega
        · simp [storeGet, hj, ih]

theorem storeRead_storeWrite (m : Memory) (a k : Nat) (b : Byte) :
    storeRead (storeWrite m a b) k = if a = k then b else storeRead m k := by
  unfold storeRead
  rw [storeGet_storeWrite]
  by_cases h : a = k <;> simp [h]

/-- `MemWrite` stores its bytes at consecutive addresses and nothing else. -/
theorem storeRead_memWrite (m : Memory) (a k : Nat) (bs : List Byte) :
    storeRead (memWrite m a bs) k =
      if h : a ≤ k ∧ k - a < bs.length then bs[k - a]'h.2 else storeRead m k := by
  induction bs generalizing m a with
  | nil => simp [memWrite]
  | cons b bs ih =>
    rw [memWrite, ih, storeRead_storeWrite]
    by_cases hk : a = k
    · subst hk
      simp
    · by_cases hin : a ≤ k ∧ k - a < (b :: bs).length
      · have hin' : a + 1 ≤ k ∧ k - (a + 1) < bs.length := by
          simp only [List.length_cons] at hin
          omega
        rw [dif_pos hin', dif_pos hin]
        have idx : k - a = (k - (a + 1)) + 1 := by omega
        simp only [idx, List.getElem_cons_succ]
      · have hin' : ¬(a + 1 ≤ k ∧ k - (a + 1) < bs.length) := by
          simp only [List.length_cons] at hin
          omega
        rw [dif_neg hin', dif_neg hin, if_neg hk]

theorem memRead_eq_map (m : Memory) (a n : Nat) :
    memRead m a n = (List.range' a n).map (storeRead m) := by
  induction n generalizing a with
  | zero => rfl
  | succ n ih => rw [memRead, ih, List.range'_succ, List.map_cons]

/-- What `MemWrite` stored, `MemRead` returns. -/
theorem memRead_memWrite (m : Memory) (a : Nat) (bs : List Byte) :
    memRead (memWrite m a bs) a bs.length = bs := by
  rw [memRead_eq_map]
  apply List.ext_getElem (by simp)
  intro i h₁ h₂
  rw [List.getElem_map, List.getElem_range', storeRead_memWrite,
    dif_pos ⟨by omega, by simpa using h₂⟩]
  simp

/-! ### The canonical form -/

theorem storeAbove_storeWrite {a k : Nat} (h : a < k) {m : Memory} (hm : storeAbove a m = true) (b : Byte) :
    storeAbove a (storeWrite m k b) = true := by
  induction m generalizing a with
  | nil => simp [storeWrite, storeAbove, h]
  | cons c m ih =>
    obtain ⟨j, c⟩ := c
    simp only [storeAbove, Bool.and_eq_true, decide_eq_true_eq] at hm
    unfold storeWrite
    split
    · next hkj => simp [storeAbove, h, hkj, hm.2]
    · split
      · next hkj => simp [storeAbove, hkj, hm.1, hm.2]
      · simp only [storeAbove, Bool.and_eq_true, decide_eq_true_eq]
        exact ⟨hm.1, ih (by omega) hm.2⟩

/-- A write keeps the canonical form. -/
theorem wf_storeWrite {m : Memory} (hm : m.wf = true) (k : Nat) (b : Byte) : (storeWrite m k b).wf = true := by
  match m with
  | [] => rfl
  | (j, c) :: rest =>
    unfold storeWrite
    split
    · next hkj => simpa [Memory.wf, storeAbove, hkj] using hm
    · split
      · next hkj => simpa [Memory.wf, hkj] using hm
      · exact storeAbove_storeWrite (by omega) hm b

/-- `MemWrite` keeps the canonical form. -/
theorem wf_memWrite {m : Memory} (hm : m.wf = true) (a : Nat) (bs : List Byte) : (memWrite m a bs).wf = true := by
  induction bs generalizing m a with
  | nil => exact hm
  | cons b bs ih => exact ih (wf_storeWrite hm a b) (a + 1)

/-- The store right after reset has the canonical form. -/
theorem wf_reset : State.reset.store.wf = true := rfl

end Sys2Proof.Machine
end

