-- ==== Sys2Proof/Tests/Slice0.lean ====
section
/-! SUPPORT. Tests. Expected values are those of spec/95_test_vectors.md (named V…, P…) and the examples of the command rules;
then one witness for the hypotheses of every statement that has some. -/

namespace Sys2Proof.Tests

open Sys2Proof Sys2Proof.Machine

/-- A state right after reset whose free values are settled: the environment's answers are `env`, the host's inputs are
`host`, `RES` and `THR` were written, the store has room for two SAVEs. -/
def small (env : List Bool) (host : List HostInput) : State :=
  { State.reset with
    cfg := { Config.default with cycPerUs := ⟨1, Nat.le_refl 1⟩, eeSize := 26 }
    res := 0x0C, thr := 0xC1280000, env := env, host := host }

/-- What a test looks at in an outcome. -/
def see {α : Type} (f : State → α) (o : Host.Outcome State Fault Refusal) : Option α :=
  match o with
  | .next s => some (f s)
  | .fault _ => none
  | .refused _ => none

/-- The outcome of the one command word `w` from `s`. -/
def after {α : Type} (f : State → α) (w : CmdWord) (s : State) : Option α :=
  see f (step { s with host := [.present w] })

/-- A string of slots, as spec/95_test_vectors.md writes it: first slot first. -/
def slots : List Bool → Trace
  | [] => []
  | b :: bs => traceW Config.default b ++ slots bs

/-- The response of a state, as code and data. -/
def answer (s : State) : Option (BitVec 2 × Word) := (rspOut s).map fun r => (codeBits r.code, r.data)

/-- The answers of a present sensor that sends these nine bytes. -/
def sensor (p : Bool) (bytes : List Byte) : List Bool := p :: bytes.flatMap byteBits

/-! ## WellFormed smoke test -/

theorem test_wellFormed_refuses_wide_res : Instr.wellFormed (.wrregRes 0x100) = false := by decide
theorem test_wellFormed_accepts_byte_res : Instr.wellFormed (.wrregRes 0xFF) = true := by decide

/-! ## Words of the spec: every row's word, its five fixed parts written out from spec/30_encoding.md R77 -/

theorem test_decode_session :
    decode 0x0100000000 = .ok .beginSession ∧ decode 0x0200000000 = .ok .startConv ∧
    decode 0x0300000000 = .ok .pollConv ∧ decode 0x0400000000 = .ok .readTemp := by decide
theorem test_decode_configure :
    decode 0x050000000B = .ok (.setRes 11) ∧ decode 0x05FFFFFFFF = .ok (.setRes 0xFFFFFFFF) ∧
    decode 0x0641C80000 = .ok (.setAlarm 0x41C80000) ∧ decode 0x06FFFFFFFF = .ok (.setAlarm 0xFFFFFFFF) := by
  decide
theorem test_decode_alarm_power :
    decode 0x0700000000 = .ok .checkAlarm ∧ decode 0x0800000000 = .ok .paraOff ∧
    decode 0x0900000000 = .ok .paraOn := by decide
theorem test_decode_rdreg :
    decode 0x1000000000 = .ok .rdregStatus ∧ decode 0x1100000000 = .ok .rdregRes ∧
    decode 0x1200000000 = .ok .rdregThr ∧ decode 0x1300000000 = .ok .rdregDevidLo ∧
    decode 0x1400000000 = .ok .rdregDevidHi := by decide
theorem test_decode_wrreg :
    decode 0x21000000C8 = .ok (.wrregRes 0xC8) ∧ decode 0x22C1280000 = .ok (.wrregThr 0xC1280000) ∧
    decode 0x2300A1B228 = .ok (.wrregDevidLo 0x00A1B228) ∧
    decode 0x24C300005D = .ok (.wrregDevidHi 0xC300005D) := by decide
/-- V44.20 to V44.32. -/
theorem test_decode_illegal :
    decode 0x0000000000 = .error (.unassigned 0x00) ∧ decode 0xFFFFFFFFFF = .error (.unassigned 0xFF) ∧
    decode 0x0A00000000 = .error (.unassigned 0x0A) ∧ decode 0x0100000001 = .error (.operandNotZero 0x01) ∧
    decode 0x0300000001 = .error (.operandNotZero 0x03) ∧ decode 0x1000000001 = .error (.operandNotZero 0x10) ∧
    decode 0x1500000000 = .error (.reservedRead 5) ∧ decode 0x1F00000000 = .error (.reservedRead 15) ∧
    decode 0x2000000001 = .error .statusWrite ∧ decode 0x2000000000 = .error .statusWrite ∧
    decode 0x2100000100 = .error .resTooWide ∧ decode 0x2500000000 = .error (.reservedWrite 5) ∧
    decode 0x3000000000 = .error (.unassigned 0x30) := by decide
theorem test_encode_setRes : encode (.setRes 11) = 0x050000000B := by decide
theorem test_decodeTableWord :
    decodeTableWord 40 0x0641C80000 = some (.setAlarm 0x41C80000) ∧ decodeTableWord 40 0x2100000100 = none := by
  decide
theorem test_withFetchWord_runs_it :
    see (fun t => (answer t, t.host)) (step (State.reset.withFetchWord 40 0x0800000000)) =
      some (some (0, 0), []) := by decide

/-! ## One step each -/

/-- V40.1, V42.30. -/
theorem test_begin_present :
    after (fun t => (answer t, t.lmode, t.pres, statusWord t, normTrace t.trace)) 0x0100000000 (small [false] []) =
      some (some (0, 0), .high, true, 0x12,
        [.drive .low, .wait 480, .drive .rel, .wait 60, .sample false, .drive .high, .wait 420]) := by decide
/-- V40.2, V42.31. -/
theorem test_begin_absent :
    after (fun t => (answer t, statusWord t, normTrace t.trace)) 0x0100000000 (small [true] []) =
      some (some (0, 0), 0,
        [.drive .low, .wait 480, .drive .rel, .wait 60, .sample true, .wait 420]) := by decide
/-- V42.2: slots 00100010 after the reset pulse. -/
theorem test_startConv :
    after (fun t => (answer t, statusWord t, normTrace (t.trace.drop 7))) 0x0200000000 (small [false] []) =
      some (some (0, 0), 0x14,
        normTrace (slots [false, false, true, false, false, false, true, false])) := by decide
/-- V42.4. -/
theorem test_poll_high_latches :
    after (fun t => (answer t, t.conv, t.trace)) 0x0300000000 { small [true] [] with conv := .converting } =
      some (some (0, 1), .complete, [.sample true]) := by decide
/-- P4 step 3: the environment answers 1, the block holds the line low. -/
theorem test_poll_held_low :
    after (fun t => (answer t, t.conv, t.trace)) 0x0300000000
      { small [true] [] with conv := .converting, lmode := .low } =
      some (some (0, 0), .converting, [.sample false]) := by decide
/-- P3 step 1: "a model that faults stops there". -/
theorem test_poll_in_idle : step (small [true] [.present 0x0300000000]) = .fault .undefSeq := rfl
/-- V42.10. -/
theorem test_readTemp :
    after (fun t => (answer t, t.lmode, t.env.length, duration t.trace)) 0x0400000000
      (small (sensor false [0x28, 0x90, 0x01, 0x4B, 0x46, 0x7F, 0xFF, 0x10, 0xA5]) []) =
      some (some (0, 0x3FC80000), .rel, 0, 5840) := by decide +kernel
/-- V42.7: the first byte is not the family code. -/
theorem test_readTemp_wrong_family :
    after answer 0x0400000000 (small (sensor false [0x10, 0x90, 0x01, 0, 0, 0, 0, 0, 0]) []) =
      some (some (0, 0x7FC00000)) := by decide +kernel
/-- V43.3, P2 step 1. -/
theorem test_setRes_accepted :
    after (fun t => (answer t, t.res, t.lmode, t.trace)) 0x050000000B { small [] [] with lmode := .high } =
      some (some (0, 0), 0x0B, .rel,
        slots [false, false, false, false, false, false, true, false]) := by decide
/-- V43.8: the whole operand is compared. -/
theorem test_setRes_ignored :
    after (fun t => (answer t, t.res, t.lmode, t.trace)) 0x0500000109 { small [] [] with lmode := .high } =
      some (some (0, 0), 0x0C, .high, []) := by decide
/-- V43.10. -/
theorem test_setAlarm :
    after (fun t => (answer t, t.thr, t.trace)) 0x0641C80000 (small [] []) =
      some (some (0, 0), 0x41C80000,
        slots [false, false, false, false, true, false, false, true, true, false, false, false, false, false,
          false, false]) := by decide +kernel
/-- V43.33: a not-a-number is answered OK and stored. -/
theorem test_setAlarm_nan :
    after (fun t => (answer t, t.thr)) 0x067FC00000 (small [] []) = some (some (0, 0), 0x7FC00000) := by decide
/-- V43.40. -/
theorem test_checkAlarm :
    after (fun t => (answer t, t.lmode, t.pres, t.trace)) 0x0700000000 { small [false] [] with pres := true } =
      some (some (0, 1), .rel, true,
        [.drive .low, .wait 480, .drive .rel, .drive .low, .wait 2, .drive .rel, .wait 15, .sample false]) := by
  decide
/-- V43.50. -/
theorem test_paraOff :
    after (fun t => (answer t, statusWord t, t.trace)) 0x0800000000 (small [] []) =
      some (some (0, 0), 1, [.drive .low]) := by decide
/-- V43.52: the event is recorded although the line is released already. -/
theorem test_paraOn :
    after (fun t => (answer t, t.lmode, t.trace)) 0x0900000000 (small [] []) =
      some (some (0, 0), .rel, [.drive .rel]) := by decide
/-- V44.4. -/
theorem test_rdregStatus :
    after answer 0x1000000000 { small [] [] with lmode := .low, conv := .converting, pres := true } =
      some (some (0, 0x15)) := by decide
/-- V44.7. -/
theorem test_rdregRes : after answer 0x1100000000 { small [] [] with res := 0x0A } = some (some (0, 0x0A)) := by
  decide
/-- V44.10. -/
theorem test_rdregThr : after answer 0x1200000000 (small [] []) = some (some (0, 0xC1280000)) := by decide
/-- V44.13. -/
theorem test_rdregDevid :
    let s := { small [] [] with devid := #v[0x28, 0xB2, 0xA1, 0x00, 0x5D, 0x00, 0x00, 0xC3] }
    after answer 0x1300000000 s = some (some (0, 0x00A1B228)) ∧
    after answer 0x1400000000 s = some (some (0, 0xC300005D)) := by decide
/-- V44.8: not validated. -/
theorem test_wrregRes :
    after (fun t => (answer t, t.res, t.trace)) 0x21000000C8 (small [] []) = some (some (0, 0), 0xC8, []) := by decide
/-- V46.8: a signalling not-a-number is kept bit for bit. -/
theorem test_wrregThr :
    after (fun t => (answer t, t.thr, t.trace)) 0x227FA00001 (small [] []) =
      some (some (0, 0), 0x7FA00001, []) := by decide
/-- V44.11. -/
theorem test_wrregDevidLo :
    after (fun t => (answer t, t.devid)) 0x2300A1B228 { small [] [] with devid := Vector.replicate 8 0x77 } =
      some (some (0, 0), #v[0x28, 0xB2, 0xA1, 0x00, 0x77, 0x77, 0x77, 0x77]) := by decide
/-- V44.12. -/
theorem test_wrregDevidHi :
    after (fun t => (answer t, t.devid)) 0x24C300005D { small [] [] with devid := Vector.replicate 8 0x77 } =
      some (some (0, 0), #v[0x77, 0x77, 0x77, 0x77, 0x5D, 0x00, 0x00, 0xC3]) := by decide
/-- V44.28: ILLEGAL, nothing changes. -/
theorem test_illegal_word :
    after (fun t => (answer t, t.trace, statusWord t)) 0x2000000001 (small [] []) = some (some (1, 0), [], 0) := by
  decide

/-! ## Arithmetic -/

/-- V42.14, V42.17 to V42.22: bytes `SP[1]`, `SP[2]`. -/
theorem test_decodeTemp :
    [(0x5E, 0xFF), (0x00, 0x00), (0xF8, 0xFF), (0x0F, 0x00), (0xFF, 0x7F), (0x00, 0x80)].map
      (fun (b : Byte × Byte) => decodeTemp Config.default #v[0x28, b.1, b.2, 0, 0, 0, 0, 0, 0]) =
    [0xBF300000, 0x00000000, 0xBD800000, 0x00000000, 0x42FFE000, 0xC3000000] := by decide +kernel
/-- V42.13 and V42.16 with `TEMP_SHIFT` = 0. -/
theorem test_decodeTemp_unshifted :
    [(0x90, 0x01), (0x90, 0xFC)].map
      (fun (b : Byte × Byte) =>
        decodeTemp { Config.default with tempShift := 0 } #v[0x28, b.1, b.2, 0, 0, 0, 0, 0, 0]) =
    [0x41C80000, 0xC25C0000] := by decide +kernel
/-- V43.11, V43.15 to V43.22, V43.26, V43.27, V46.6; the free value is 0x5555. -/
theorem test_enc16 :
    [0xC1280000, 0x80000000, 0x3D000000, 0xBD000000, 0x3DC00000, 0xBDC00000, 0x3CF5C28F, 0x3DCCCCCD, 0xBDCCCCCD,
      0x44FFFE00, 0xC5000000, 0x00000001, 0x807FFFFF].map (fun v => enc16 v 0x5555) =
    [0xFF58, 0x0000, 0x0001, 0xFFFF, 0x0002, 0xFFFE, 0x0000, 0x0002, 0xFFFE, 0x7FFF, 0x8000, 0x0000, 0x0000] := by
  decide +kernel
/-- V43.28 to V43.33, V46.7: outside the domain. -/
theorem test_enc16_out_of_domain :
    [0x44FFFF00, 0x45000000, 0xC5000100, 0x45800000, 0x7F800000, 0x7FC00000, 0x7F7FFFFF].map
      (fun v => alarmFits v) = [false, false, false, false, false, false, false] := by decide +kernel
/-- V45.1 to V45.3. -/
theorem test_readFData :
    readFData 0x3FC80000 = 0x420B4000 ∧ readFData 0x41C80000 = 0x429A0000 ∧
    readFData 0x7FC00000 = 0x7FC00000 := by decide +kernel

/-! ## The host and reset -/

/-- V45.5, R194: the bytes at addresses 0 to 12 and the cursor. -/
theorem test_save :
    see (fun t => (t.store.map (·.2), t.store.map (·.1), t.cur, t.trace))
      (step { small [] [.save] with res := 0x0B, thr := 0x41C80000 }) =
    some ([0x0B, 0, 0, 0xC8, 0x41, 0, 0, 0, 0, 0, 0, 0, 0], [0, 1, 2, 3, 4, 5, 6, 7, 8, 9, 10, 11, 12], 13, []) := by
  decide +kernel
/-- P5 steps 5 and 7. -/
theorem test_load :
    see (fun t => (t.res, t.thr, t.devid, t.cur, t.trace))
      (step { small [] [.load] with
        store := [(0, 0x0A), (1, 0x00), (2, 0x00), (3, 0x28), (4, 0xC1), (5, 0x28), (6, 0x22), (7, 0x33), (8, 0x44),
          (9, 0x55), (10, 0x66), (11, 0x77), (12, 0xC3)] }) =
    some (0x0A, 0xC1280000, #v[0x28, 0x22, 0x33, 0x44, 0x55, 0x66, 0x77, 0xC3], 13, []) := by decide +kernel
/-- V45.8. -/
theorem test_save_refused : step { small [] [.save] with cur := 14 } = .refused .storeExhausted := rfl
/-- V70.2. -/
theorem test_reset_after_paraOff :
    see (fun t => (t.lmode, statusWord t, cmdReady t, pads t))
      (step { small [] [.rst false] with lmode := .low, trace := [.drive .low] }) =
    some (.rel, 0, false, { dqO := false, dqOe := false, dqPu := true }) := by decide
/-- V70.3: `SET_ALARM 25.0` cut after its tenth slot, fifty events. -/
theorem test_reset_in_setAlarm :
    see (fun t => (t.thr, t.lmode, rspOut t, t.pastTraces)) (step (small [] [.presentThenReset 0x0641C80000 50 0])) =
      some (0xC1280000, .rel, none,
        [slots [false, false, false, false, true, false, false, true, true, false]]) := by decide +kernel
/-- V70.4: 100 µs into the low time of a `BEGIN`. -/
theorem test_reset_in_begin :
    see (fun t => (t.pres, t.lmode, rspOut t, t.pastTraces)) (step (small [false] [.presentThenReset 0x0100000000 1 100])) =
      some (false, .rel, none, [[.drive .low, .wait 100]]) := by decide

/-- R221: a `WRREG.THR` that was accepted and has not written yet, and one that has. -/
theorem test_reset_in_wrregThr :
    see (·.thr) (step (small [] [.presentThenReset 0x227FA00001 0 0])) = some 0xC1280000 ∧
    see (·.thr) (step (small [] [.presentThenReset 0x227FA00001 1 0])) = some 0x7FA00001 := by decide

/-! ## Witnesses: concrete values that meet the hypotheses of a statement, clause by clause, at the ends of their ranges -/

theorem witness_DecodeOfEncode :
    Instr.WellFormed (.wrregRes 0xFF) ∧ Instr.WellFormed (.wrregRes 0) ∧ Instr.WellFormed (.setRes 0xFFFFFFFF) := by
  decide
theorem witness_EncodeOfDecode : decode 0x21000000FF = .ok (.wrregRes 0xFF) := by decide
theorem witness_DecodeSelectsTheMatchingRow :
    ((0x050000000B : CmdWord) &&& Instr.rowMask (.setRes 11) = Instr.rowMatch (.setRes 11) ∧
      argField 0x050000000B = Instr.operand (.setRes 11)) ∧
    ((0x050000000B : CmdWord) &&& Instr.rowMask (.setRes 11) = Instr.rowMatch (.setRes 11) ∧
      (0x050000000B : CmdWord) &&& Instr.rowMask (.setRes 9) = Instr.rowMatch (.setRes 9)) ∧
    (∀ i : Instr, (0 : CmdWord) &&& i.rowMask ≠ i.rowMatch) := by
  refine ⟨by decide, by decide, fun i => ?_⟩
  rw [show (0 : CmdWord) &&& i.rowMask = 0 from BitVec.zero_and]
  cases i <;> simp [Instr.rowMatch]
/-- The first and the last opcode of every range of the list of R79. -/
theorem witness_IllegalWordsAreThoseListed :
    [0x0000000000, 0x0A00000000, 0x0F00000000, 0x1500000000, 0x1F00000000, 0x2000000000, 0x2500000000,
      0x2F00000000, 0x3000000000, 0xFF00000000, 0x0100000001, 0x0480000000, 0x0700000001, 0x0900000001, 0x1000000001,
      0x1400000001, 0x2100000100, 0x21FFFFFF00].all
      (fun w => match decode w with | .ok _ => false | .error _ => true) = true ∧
    cmdReady (small [] [.present 0x2100000100]) = true ∧
    illegalByList (opField 0x2100000100).toNat (argField 0x2100000100) := by
  refine ⟨by decide, by decide, ?_⟩
  unfold illegalByList
  decide
theorem witness_StepRunsTheDecodedCommand :
    (small [] [.present 0x0800000000]).host = .present 0x0800000000 :: [] ∧
    cmdReady (small [] [.present 0x0800000000]) = true ∧ decode 0x0800000000 = .ok .paraOff := by decide
theorem witness_WithFetchWordRunsTheCommand : decode 0x0800000000 = .ok .paraOff := by decide
theorem witness_Handshake :
    cmdReady { small [] [.present 0x0800000000] with seq := .responding ⟨.ok, 0⟩ } = false ∧
    cmdReady { small [] [.present 0x0800000000] with rstN := false } = false ∧
    { small [] [.take] with seq := .responding ⟨.ok, 1⟩ }.seq = .responding ⟨.ok, 1⟩ ∧
    (small [] []).host = [] := by decide
/-- The responses that the clauses of the statement distinguish all occur. -/
theorem witness_EveryCommandAnswersOnce :
    Defined .pollConv { small [] [] with conv := .complete } ∧ Defined .paraOn (small [] []) ∧
    see answer (exec (.wrregRes 0x100) (small [] [])) = some (some (1, 0)) ∧
    see answer (exec .paraOn (small [] [])) = some (some (0, 0)) ∧
    see answer (exec .checkAlarm (small [false] [])) = some (some (0, 1)) := by decide
theorem witness_PadsAreAFunctionOfTheLineMode :
    (small [] []).lmode = .rel ∧ { small [] [] with lmode := .low }.lmode = .low ∧
    { small [] [] with lmode := .high }.lmode = .high := by decide
theorem witness_SampleReadsTheLevel :
    (small [false, true] []).env = false :: [true] ∧ (small [false] []).lmode = .rel ∧
    { small [true] [] with lmode := .low }.lmode = .low ∧ { small [false] [] with lmode := .high }.lmode = .high := by
  decide
/-- An answer to come, as PresenceReset, BitSlots and CheckAlarmResult assume one. -/
theorem witness_answers_to_come :
    (small [true] []).env = true :: [] ∧ presenceAnswer (small [true] []) = true ∧
    readAnswer (small [true] []) = true ∧ alarmAnswer (small [true] []) = true := by decide
theorem witness_ReadByteInvertsWriteByte :
    (writeByte 0xA5 (small [] [])).trace =
      (small [] []).trace ++ [true, false, true, false, false, true, false, true].flatMap
        (traceW (small [] []).cfg) ∧
    [true, false, true, false, false, true, false, true].length = 8 ∧
    (small [true, false, true, false, false, true, false, true, false] []).env =
      [true, false, true, false, false, true, false, true] ++ [false] := by decide
theorem witness_PollWhileConverting :
    { small [true] [] with conv := .converting }.conv = .converting ∧
    { small [true] [] with conv := .converting }.env = true :: [] := by decide
theorem witness_PollAfterComplete : { small [] [] with conv := .complete }.conv = .complete := by decide
theorem witness_PollInIdleIsAFault :
    (small [] [.present 0x0300000000]).host = .present 0x0300000000 :: [] ∧
    cmdReady (small [] [.present 0x0300000000]) = true ∧ (small [] [.present 0x0300000000]).conv = .idle := by decide
theorem witness_ConversionStateMachine :
    (small [] []).conv = .idle ∧ { small [] [] with conv := .converting }.conv = .converting ∧
    { small [] [] with conv := .complete }.conv = .complete ∧
    (Instr.paraOn ≠ .startConv ∧ Instr.paraOn ≠ .pollConv) ∧
    ((small [] [.rst false]).host = .rst false :: [] ∧ (small [] [.rst false]).rstN = true) := by decide
theorem witness_ReadTempOfASensorThatSends :
    (small (sensor true [0x28, 0x90, 0x01, 0, 0, 0, 0, 0, 0xA5] ++ [false]) []).env =
      true :: ((#v[0x28, 0x90, 0x01, 0, 0, 0, 0, 0, 0xA5] : Vector Byte 9).toList.flatMap byteBits ++ [false]) := by
  decide
/-- `t` = 0, a default shift, and a shift of 15 on the least word. -/
theorem witness_DecodeTempIsExact :
    tempInt Config.default (Vector.replicate 9 0) = 0 ∧ Config.default.tempShift = 4 ∧
    tempInt { Config.default with tempShift := 15 } #v[0x28, 0x00, 0x80, 0, 0, 0, 0, 0, 0] = -1 := by decide
theorem witness_ReadTempDependsOnTheBytesOnly :
    ∃ s s' t t' : State, exec .readTemp s = .next t ∧ exec .readTemp s' = .next t' ∧ s.cfg = s'.cfg ∧
      t.sp = t'.sp ∧ s.res ≠ s'.res :=
  ⟨small (sensor false [0x28, 0x90, 0x01, 0, 0, 0, 0, 0, 0]) [],
    { small (sensor false [0x28, 0x90, 0x01, 0, 0, 0, 0, 0, 0]) [] with res := 0x09 }, _, _, rfl, rfl, rfl,
    by decide +kernel, by decide⟩
/-- The ends of both ranges of `SET_RES`, for SetResResult and TheFourResolutionPatterns. -/
theorem witness_SetResResult :
    (9 ≤ (9 : Word).toNat ∧ (9 : Word).toNat ≤ 12) ∧ (9 ≤ (12 : Word).toNat ∧ (12 : Word).toNat ≤ 12) ∧
    (8 : Word).toNat < 9 ∧ 12 < (13 : Word).toNat ∧ 12 < (0x109 : Word).toNat := by decide
/-- The largest and the smallest value that fit (V43.26 and the one just above −2048.03125), a tie, and the first that do
not. -/
theorem witness_AlarmEncodingRoundsToNearest :
    (isFinite 0x44FFFE00 = true ∧ -32768 ≤ alarmInt 0x44FFFE00 ∧ alarmInt 0x44FFFE00 ≤ 32767) ∧
    (isFinite 0x44FFFEFF = true ∧ alarmInt 0x44FFFEFF = 32767) ∧
    (isFinite 0xC500007F = true ∧ alarmInt 0xC500007F = -32768) ∧
    (isFinite 0x3D000000 = true ∧
      2 * (alarmInt 0x3D000000 * 2 ^ 145 - f32Scaled 0x3D000000).natAbs = 2 ^ 145) := by decide +kernel
theorem witness_AlarmEncodingOutOfDomainIsFree :
    (32767 < alarmInt 0x44FFFF00) ∧ (alarmInt 0xC5000080 < -32768) ∧ isFinite 0x7F800000 = false ∧
    isFinite 0xFFC00001 = false := by decide +kernel
theorem witness_WrregResAndThrResult :
    ∃ t, exec (.wrregThr 0x7FA00001) (small [] []) = .next t := ⟨_, rfl⟩
theorem witness_WrregResOverEveryOperand :
    (0xFF : Word).toNat < 256 ∧ 256 ≤ (0x100 : Word).toNat ∧ 256 ≤ (0xFFFFFF00 : Word).toNat := by decide
theorem witness_DevidReadsBack :
    ∃ t u, exec (.wrregDevidLo 0x00A1B228) (small [] []) = .next t ∧ exec (.wrregDevidHi 0xC300005D) t = .next u :=
  ⟨_, _, rfl, rfl⟩
/-- A command that is defined, for EndModes, TraceSegmentOfEveryCommand and OnlyTheNamedCommandsWriteARegister. -/
theorem witness_defined_commands :
    Defined .pollConv { small [] [] with conv := .converting } ∧ Defined .readTemp (small [] []) := by decide
theorem witness_EndModes : decode 0x2000000001 = .error .statusWrite := by decide
theorem witness_LineTimeOfEveryCommand :
    Defined (.setRes 9) (small [] []) ∧ decode 0x2000000001 = .error .statusWrite ∧
    Config.default.tLow ≤ Config.default.tSlot ∧
    { Config.default with tLow := 60 }.tLow ≤ { Config.default with tLow := 60 }.tSlot := by decide
theorem witness_SettingsAreSeenByTheirReadsOnly :
    Instr.readTemp ≠ .rdregRes ∧ Instr.readTemp ≠ .rdregThr ∧ Instr.readTemp ≠ .rdregDevidLo ∧
    Instr.readTemp ≠ .rdregDevidHi ∧ Defined .readTemp (small [] []) ∧
    Instr.pollConv ≠ .rdregRes ∧ Instr.pollConv ≠ .rdregThr ∧ Instr.pollConv ≠ .rdregDevidLo ∧
    Instr.pollConv ≠ .rdregDevidHi ∧ ¬ Defined .pollConv (small [] []) := by decide
/-- Each command that the statement names does write its register. -/
theorem witness_OnlyTheNamedCommandsWriteARegister :
    see (·.res) (exec (.setRes 9) (small [] [])) = some 9 ∧ (small [] []).res = 0x0C ∧
    see (·.thr) (exec (.setAlarm 0) (small [] [])) = some 0 ∧ (small [] []).thr = 0xC1280000 ∧
    see (·.pres) (exec .beginSession (small [false] [])) = some true ∧ (small [] []).pres = false := by decide
theorem witness_PollNeverTrueWhileHeldLow :
    { small [true, true] [] with conv := .converting }.conv = .converting := by decide
theorem witness_ResetInput :
    (small [] [.rst false, .rst true]).host = .rst false :: .rst true :: [] ∧
    (small [] [.rst false, .rst true]).rstN = true := by decide
/-- The last cut inside each transmission: event 79 of `SET_ALARM`, event 39 of `SET_RES`. -/
theorem witness_ResetInsideATransmission :
    (small [] [.presentThenReset 0x0641C80000 79 0]).host = .presentThenReset 0x0641C80000 79 0 :: [] ∧
    cmdReady (small [] [.presentThenReset 0x0641C80000 79 0]) = true ∧
    decode 0x0641C80000 = .ok (.setAlarm 0x41C80000) ∧ 79 < 80 ∧
    (small [] [.presentThenReset 0x0500000009 39 9]).host = .presentThenReset 0x0500000009 39 9 :: [] ∧
    cmdReady (small [] [.presentThenReset 0x0500000009 39 9]) = true ∧
    decode 0x0500000009 = .ok (.setRes 9) ∧ 39 < 40 := by decide
theorem witness_ResetInsideAnyCommand :
    (small [false] [.presentThenReset 0x0100000000 1 100]).host = .presentThenReset 0x0100000000 1 100 :: [] ∧
    cmdReady (small [false] [.presentThenReset 0x0100000000 1 100]) = true ∧
    decode 0x0100000000 = .ok .beginSession ∧ Defined .beginSession (small [false] []) ∧
    see (fun t => t.trace[1]?) (exec .beginSession (small [false] [])) = some (some (.wait 480)) ∧
    see (fun t => t.trace[2]?) (exec .beginSession (small [false] [])) = some (some (.drive .rel)) ∧
    see (fun t => t.trace.length) (exec .beginSession (small [false] [])) = some 7 := by decide
/-- A `SAVE` or `LOAD` that just fits, and one that does not. -/
theorem witness_SaveResult_LoadResult :
    { small [] [.save] with cur := 13 }.host = .save :: [] ∧ { small [] [.load] with cur := 13 }.host = .load :: [] ∧
    cmdReady { small [] [.save] with cur := 13 } = true ∧
    { small [] [.save] with cur := 13 }.cur + 13 ≤ { small [] [.save] with cur := 13 }.cfg.eeSize := by decide
theorem witness_SaveThenLoadReproducesTheSettings :
    ∃ t, step (small [] [.save]) = .next t ∧
      let u := { small [] [.load] with store := t.store, res := 0, thr := 0 }
      u.host = .load :: [] ∧ cmdReady u = true ∧ u.store = t.store ∧ u.cur = (small [] [.save]).cur ∧
      u.cfg.eeSize = (small [] [.save]).cfg.eeSize :=
  ⟨_, rfl, rfl, rfl, rfl, rfl, rfl⟩
theorem witness_StoreExhaustionIsRefused :
    { small [] [.save] with cur := 14 }.host = .save :: [] ∧ cmdReady { small [] [.save] with cur := 14 } = true ∧
    { small [] [.save] with cur := 14 }.cfg.eeSize < { small [] [.save] with cur := 14 }.cur + 13 := by decide
/-- The host's input and readiness; a not-a-number; an exact result (1.5625 gives 34.8125, V45.1). -/
theorem witness_ReadFahrenheit :
    ((small [] [.readF]).host = .readF :: [] ∧ cmdReady (small [] [.readF]) = true) ∧ isNaN 0x7FC00000 = true ∧
    (isFinite 0x3FC80000 = true ∧ isFinite 0x420B4000 = true ∧
      5 * f32Scaled 0x420B4000 = 9 * f32Scaled 0x3FC80000 + 160 * 2 ^ 149) := by decide +kernel
theorem witness_EveryStepKeepsTheInvariant :
    Inv (small [] [.present 0x0800000000]) ∧ ∃ t, step (small [] [.present 0x0800000000]) = .next t :=
  ⟨⟨rfl, rfl, by simp [small, State.reset, State.construct], rfl, by simp [small, State.reset, State.construct]⟩, _, rfl⟩
/-- The clause of the invariant on a low `rst_n`. -/
theorem witness_EveryStepKeepsTheInvariant_low :
    Inv { small [] [] with rstN := false } ∧ ∃ t, step { small [] [] with rstN := false } = .next t :=
  ⟨⟨rfl, rfl, by simp [small, State.reset, State.construct], rfl, fun _ => ⟨rfl, rfl, rfl, rfl, rfl, rfl⟩⟩, _, rfl⟩
theorem witness_OnlySaveAndLoadMoveTheCursor : ∃ t, step (small [] [.save]) = .next t := ⟨_, rfl⟩
/-- Each of the ways a step can end. -/
theorem witness_StepsThatStop :
    (∃ t, step (small [] []) = .next t) ∧
    step { small [] [.load] with cur := 14 } = .refused .storeExhausted ∧
    step (small [] [.presentThenReset 0x0300000000 0 0]) = .fault .undefSeq ∧
    step (small [] [.presentThenClockStop 0x0100000000]) = .fault .clockStopped := ⟨⟨_, rfl⟩, rfl, rfl, rfl⟩

end Sys2Proof.Tests
end

section
/-! SUPPORT. What each command does to the whole state, one equation per command that touches the line
(spec/42_session.md, spec/43_config_alarm_power.md); the others are their own definitions. -/

namespace Sys2Proof.Machine

/-! ### End modes of whole transmissions -/

@[simp] theorem endMode_traceWB (cfg : Config) (m : LineMode) (v : Byte) : endMode m (traceWB cfg v) = .rel :=
  endMode_traceSlots cfg m v 7 0

@[simp] theorem endMode_traceW16 (cfg : Config) (m : LineMode) (v : BitVec 16) :
    endMode m (traceW16 cfg v) = .rel :=
  endMode_traceSlots cfg m v 15 0

@[simp] theorem endMode_traceRBs_toList (cfg : Config) (m : LineMode) (v : Vector Byte 9) :
    endMode m (traceRBs cfg v.toList) = .rel := by
  rw [show v.toList = v[0] :: v.toList.drop 1 from drop_toList v 0 (by omega), endMode_traceRBs]

/-! ### Commands -/

theorem execBegin_eq (s : State) :
    execBegin s =
      .next
        { s with
          lmode := if presenceAnswer s then .rel else .high
          pres := !presenceAnswer s
          smp := presenceAnswer s
          tmr := 0
          trace := s.trace ++ traceRST s.cfg (presenceAnswer s)
          env := s.env.tail
          draws := s.draws + 1
          seq := .responding ⟨.ok, 0⟩ } := by
  rw [execBegin, presenceReset_eq]; rfl

theorem execStartConv_eq (s : State) :
    execStartConv s =
      .next
        { s with
          lmode := .rel
          conv := .converting
          pres := !presenceAnswer s
          smp := presenceAnswer s
          tmr := 0
          shreg := (s.shreg.extractLsb' 8 8 ++ 0#8 : BitVec (8 + 8))
          bitcnt := 0
          trace := s.trace ++ (traceRST s.cfg (presenceAnswer s) ++ traceWB s.cfg s.cfg.cmdConvertT)
          env := s.env.tail
          draws := s.draws + 1
          seq := .responding ⟨.ok, 0⟩ } := by
  rw [execStartConv, commandSequence_eq, List.append_assoc]; rfl

/-- `READ_TEMP` (spec/42_session.md R146), whatever nine bytes `sp'` arrive. -/
theorem execReadTemp_eq (s : State) :
    ∃ sp' : Vector Byte 9,
      execReadTemp s =
        .next
          { s with
            lmode := .rel
            pres := !presenceAnswer s
            smp := sp'[8].getLsbD 7
            tmr := 0
            shreg := (s.shreg.extractLsb' 8 8 ++ 0#8 : BitVec (8 + 8))
            acc := sp'[8]
            bitcnt := 0
            bytecnt := 9
            sp := sp'
            trace :=
              s.trace ++ (traceRST s.cfg (presenceAnswer s) ++ (traceWB s.cfg s.cfg.cmdReadSp ++
                traceRBs s.cfg sp'.toList))
            env := s.env.drop 73
            draws := s.draws + 73
            seq := .responding ⟨.ok, readTempData s.cfg sp'⟩ } := by
  refine ⟨(readScratchpad (commandSequence s.cfg.cmdReadSp s)).sp, ?_⟩
  rw [execReadTemp]
  generalize spEq : (readScratchpad (commandSequence s.cfg.cmdReadSp s)).sp = sp'
  rw [readScratchpad_eq, spEq, commandSequence_eq]
  simp [respond, Nat.add_assoc, List.append_assoc]

theorem execSetRes_of_accepted {r : Word} (s : State) (accepted : 9 ≤ r.toNat ∧ r.toNat ≤ 12) :
    execSetRes r s =
      .next
        { s with
          lmode := .rel
          res := r.extractLsb' 0 8
          tmr := 0
          shreg := (s.shreg.extractLsb' 8 8 ++ 0#8 : BitVec (8 + 8))
          bitcnt := 0
          trace := s.trace ++ traceWB s.cfg (resPattern s.cfg r)
          seq := .responding ⟨.ok, 0⟩ } := by
  rw [execSetRes, if_pos ((resAccepted_iff s.cfg r).mpr accepted), writeByte_eq]; rfl

theorem execSetRes_of_ignored {r : Word} (s : State) (ignored : ¬ (9 ≤ r.toNat ∧ r.toNat ≤ 12)) :
    execSetRes r s = .next (respond .ok 0 s) := by
  rw [execSetRes, if_neg (mt (resAccepted_iff s.cfg r).mp ignored)]

theorem execSetAlarm_eq (v : Word) (s : State) :
    execSetAlarm v s =
      .next
        { s with
          lmode := .rel
          thr := v
          tmr := 0
          shreg := 0
          bitcnt := 0
          trace := s.trace ++ traceW16 s.cfg (enc16 v (alarmDraw v s))
          draws := s.draws + 1
          seq := .responding ⟨.ok, 0⟩ } := by
  rw [execSetAlarm, writeBits16_eq]; rfl

theorem execCheckAlarm_eq (s : State) :
    execCheckAlarm s =
      .next
        { s with
          lmode := .rel
          smp := alarmAnswer s
          tmr := 0
          trace := s.trace ++ (traceAlarmOpen s.cfg ++ [.sample (alarmAnswer s)])
          env := s.env.tail
          draws := s.draws + 1
          seq := .responding ⟨.ok, boolData (!alarmAnswer s)⟩ } := by
  have opened :
      alarmPulse s = { s with lmode := .rel, tmr := 0, trace := s.trace ++ traceAlarmOpen s.cfg } := by
    simp [alarmPulse, line, delay, traceAlarmOpen]
  rw [execCheckAlarm, opened, sample_eq_of_rel rfl, ← List.append_assoc]; rfl

/-- A poll of a running conversion (spec/42_session.md R144): the sample decides the answer, and `CONV`. -/
theorem pollConverting_eq {s : State} (converting : s.conv = .converting) :
    pollConverting s =
      { s with
        conv := if sampleValue s then .complete else .converting
        smp := sampleValue s
        trace := s.trace ++ [.sample (sampleValue s)]
        env := s.env.tail
        draws := s.draws + 1
        seq := .responding ⟨.ok, boolData (sampleValue s)⟩ } := by
  rw [pollConverting, sample_smp, ← converting]
  cases high : sampleValue s <;> simp [sample, respond, setConv, high]

end Sys2Proof.Machine
end

section
/-! PROOFS. What every command does, whichever it is: the frame it keeps, the segment it adds to the line trace, its one
response, and which registers it may write (spec/10_state.md R24, R26; spec/20_memory.md R60; spec/30_encoding.md R74). -/

namespace Sys2Proof.Machine

/-- What an accepted word does between its acceptance in `s` and its response in `t`, whichever it is. Each field has as its
default that nothing of it happened, so that a command's proof names only what it does. -/
structure Answers (s t : State) : Prop where
  cfg : t.cfg = s.cfg := by rfl
  store : t.store = s.store := by rfl
  cur : t.cur = s.cur := by rfl
  received : t.received = s.received := by rfl
  fahr : t.fahr = s.fahr := by rfl
  host : t.host = s.host := by rfl
  pastTraces : t.pastTraces = s.pastTraces := by rfl
  rstN : t.rstN = s.rstN := by rfl
  opr : t.opr = s.opr := by rfl
  argr : t.argr = s.argr := by rfl
  tmr : t.tmr = 0 ∨ t.tmr = s.tmr := by exact .inr rfl
  responds : ∃ r, t.seq = .responding r := by exact ⟨_, rfl⟩
  segment : ∃ seg, t.trace = s.trace ++ seg ∧ t.lmode = endMode s.lmode seg := by
    exact ⟨[], (List.append_nil _).symm, rfl⟩

/-- What a command does, with the commands that may write each host-visible register. -/
structure CommandEffect (i : Instr) (s t : State) : Prop extends Answers s t where
  res : t.res ≠ s.res → (∃ r, i = .setRes r ∧ 9 ≤ r.toNat ∧ r.toNat ≤ 12) ∨ ∃ x, i = .wrregRes x := by
    exact fun changed => absurd rfl changed
  thr : t.thr ≠ s.thr → (∃ v, i = .setAlarm v) ∨ ∃ x, i = .wrregThr x := by
    exact fun changed => absurd rfl changed
  devid : t.devid ≠ s.devid → (∃ x, i = .wrregDevidLo x) ∨ ∃ x, i = .wrregDevidHi x := by
    exact fun changed => absurd rfl changed
  pres : t.pres ≠ s.pres → i = .beginSession ∨ i = .startConv ∨ i = .readTemp := by
    exact fun changed => absurd rfl changed
  sp : t.sp ≠ s.sp → i = .readTemp := by
    exact fun changed => absurd rfl changed

theorem execPollConv_effect {s : State} (running : s.conv ≠ .idle) :
    ∃ t, execPollConv s = .next t ∧ CommandEffect .pollConv s t := by
  cases conv : s.conv with
  | idle => exact absurd conv running
  | complete => exact ⟨respond .ok (boolData true) s, by rw [execPollConv, conv], {}⟩
  | converting =>
    refine ⟨pollConverting s, by rw [execPollConv, conv], ?_⟩
    rw [pollConverting_eq conv]
    exact { segment := ⟨_, rfl, rfl⟩ }

theorem execSetRes_effect (r : Word) (s : State) :
    ∃ t, execSetRes r s = .next t ∧ CommandEffect (.setRes r) s t := by
  by_cases accepted : 9 ≤ r.toNat ∧ r.toNat ≤ 12
  · exact ⟨_, execSetRes_of_accepted s accepted,
      { tmr := .inl rfl, segment := ⟨_, rfl, (endMode_traceWB ..).symm⟩, res := fun _ => .inl ⟨r, rfl, accepted⟩ }⟩
  · exact ⟨_, execSetRes_of_ignored s accepted, {}⟩

theorem execWrregRes_effect (x : Word) (s : State) :
    ∃ t, execWrregRes x s = .next t ∧ CommandEffect (.wrregRes x) s t := by
  by_cases byte : x.extractLsb' 8 24 = 0
  · exact ⟨_, if_pos byte, { res := fun _ => .inr ⟨x, rfl⟩ }⟩
  · exact ⟨_, if_neg byte, {}⟩

/-- Every command the spec defines in a state answers a next state, and this is all it may do on the way. -/
theorem exec_effect {i : Instr} {s : State} (defined : Defined i s) :
    ∃ t, exec i s = .next t ∧ CommandEffect i s t := by
  cases i with
  | beginSession =>
    exact ⟨_, execBegin_eq s,
      { tmr := .inl rfl, segment := ⟨_, rfl, (endMode_traceRST ..).symm⟩, pres := fun _ => .inl rfl }⟩
  | startConv =>
    exact ⟨_, execStartConv_eq s,
      { tmr := .inl rfl, segment := ⟨_, rfl, by simp⟩, pres := fun _ => .inr (.inl rfl) }⟩
  | pollConv => exact execPollConv_effect (defined rfl)
  | readTemp =>
    obtain ⟨sp', eq⟩ := execReadTemp_eq s
    exact ⟨_, eq,
      { tmr := .inl rfl, segment := ⟨_, rfl, by simp⟩, pres := fun _ => .inr (.inr rfl), sp := fun _ => rfl }⟩
  | setRes r => exact execSetRes_effect r s
  | setAlarm v =>
    exact ⟨_, execSetAlarm_eq v s,
      { tmr := .inl rfl, segment := ⟨_, rfl, (endMode_traceW16 ..).symm⟩, thr := fun _ => .inl ⟨v, rfl⟩ }⟩
  | checkAlarm => exact ⟨_, execCheckAlarm_eq s, { tmr := .inl rfl, segment := ⟨_, rfl, rfl⟩ }⟩
  | paraOff => exact ⟨_, rfl, { segment := ⟨_, rfl, rfl⟩ }⟩
  | paraOn => exact ⟨_, rfl, { segment := ⟨_, rfl, rfl⟩ }⟩
  | wrregRes x => exact execWrregRes_effect x s
  | wrregThr x => exact ⟨_, rfl, { thr := fun _ => .inr ⟨x, rfl⟩ }⟩
  | wrregDevidLo x => exact ⟨_, rfl, { devid := fun _ => .inl ⟨x, rfl⟩ }⟩
  | wrregDevidHi x => exact ⟨_, rfl, { devid := fun _ => .inr ⟨x, rfl⟩ }⟩
  | rdregStatus | rdregRes | rdregThr | rdregDevidLo | rdregDevidHi => exact ⟨_, rfl, {}⟩

/-- A command that answers a next state is one the spec defines there (spec/42_session.md R145). -/
theorem defined_of_exec_eq_next {i : Instr} {s t : State} (h : exec i s = .next t) : Defined i s := by
  rintro rfl idle
  simp [exec, execPollConv, idle] at h

/-- `exec_effect` as an inversion: what is known of any next state a command answers. -/
theorem effect_of_exec_eq_next {i : Instr} {s t : State} (h : exec i s = .next t) : CommandEffect i s t := by
  obtain ⟨u, eq, effect⟩ := exec_effect (defined_of_exec_eq_next h)
  obtain rfl : u = t := by simpa [eq] using h
  exact effect

/-- A word that runs, ILLEGAL or not, does no more than a command may. -/
theorem answers_of_runWord_eq_next {w : CmdWord} {s t : State} (h : runWord w s = .next t) :
    Answers (accept w s) t := by
  unfold runWord at h
  split at h
  · exact (effect_of_exec_eq_next h).toAnswers
  · obtain rfl := Host.Outcome.next.inj h
    exact {}

/-- Settles O45: `exec_effect`, of which the statement is a part. -/
theorem onlyTheNamedCommandsWriteARegister : Obligations.OnlyTheNamedCommandsWriteARegister := by
  unfold Obligations.OnlyTheNamedCommandsWriteARegister
  intro i s defined
  obtain ⟨t, eq, effect⟩ := exec_effect defined
  exact ⟨t, eq, effect.res, effect.thr, effect.devid, effect.pres, effect.sp, effect.cfg, effect.store, effect.cur,
    effect.received, effect.rstN, effect.opr, effect.argr⟩

end Sys2Proof.Machine
end

section
/-! PROOFS. The invariant, one lemma per operation of the host's port (spec/10_state.md R32, spec/20_memory.md R60,
spec/30_encoding.md R75, spec/70_reset_and_hazards.md R220), and its preservation by every step. -/

namespace Sys2Proof.Machine

theorem andThen_eq_next {o : Host.Outcome State Fault Refusal} {f : State → Host.Outcome State Fault Refusal}
    {t : State} (h : andThen o f = .next t) : ∃ s, o = .next s ∧ f s = .next t := by
  cases o with
  | next s => exact ⟨s, rfl, h⟩
  | fault r => cases h
  | refused r => cases h

/-- While `rst_n` is high the clause on a low one has nothing to say. -/
theorem Inv.of_high {s : State} (high : s.rstN = true) (store : s.store.wf = true) (tmr : s.tmr = 0)
    (seq : s.seq ≠ .running) (lmode : s.lmode = endMode .rel s.trace) : Inv s :=
  ⟨store, tmr, seq, lmode, fun low => absurd (high.symm.trans low) (by decide)⟩

/-- The host's own list and its last READ_F are no part of the invariant. -/
theorem Inv.setHostAndFahr {s : State} (inv : Inv s) (inputs : List HostInput) (f : Option Word) :
    Inv { s with host := inputs, fahr := f } := by
  refine ⟨inv.store, inv.tmr, inv.seq, inv.lmode, fun low => ?_⟩
  obtain ⟨lmode, conv, pres, devid, seq, trace⟩ := inv.held low
  exact ⟨lmode, conv, pres, devid, seq, trace⟩

/-- A word that was accepted in a ready state and has answered. -/
theorem Inv.of_answers {w : CmdWord} {s t : State} (inv : Inv s) (ready : cmdReady s = true)
    (answers : Answers (accept w s) t) : Inv t := by
  have high : t.rstN = true := answers.rstN.trans ((cmdReady_iff s).mp ready).1
  obtain ⟨r, responds⟩ := answers.responds
  obtain ⟨seg, trace, lmode⟩ := answers.segment
  refine .of_high high ?_ ?_ ?_ ?_
  · rw [answers.store]; exact inv.store
  · exact answers.tmr.elim id fun kept => kept.trans inv.tmr
  · simp [responds]
  · rw [trace, lmode, endMode_append, accept_trace, accept_lmode, ← inv.lmode]

theorem Inv.runWord {w : CmdWord} {s t : State} (inv : Inv s) (ready : cmdReady s = true)
    (h : runWord w s = .next t) : Inv t :=
  inv.of_answers ready (answers_of_runWord_eq_next h)

theorem Inv.presentWord {w : CmdWord} {s t : State} (inv : Inv s) (h : presentWord w s = .next t) : Inv t := by
  unfold Machine.presentWord at h
  split at h
  · next ready => exact inv.runWord ready h
  · cases h; exact inv

/-- A response is out only while `rst_n` is high, so taking one leaves a held reset as it is. -/
theorem Inv.takeResponse {s : State} (inv : Inv s) : Inv (takeResponse s) := by
  cases seq : s.seq with
  | idle | running => simpa [Machine.takeResponse, seq] using inv
  | responding r =>
    have high : s.rstN = true := by
      by_contra low
      have idle := (inv.held (by simpa using low)).seq
      simp [seq] at idle
    simp only [Machine.takeResponse, seq]
    exact .of_high high inv.store inv.tmr (by simp) inv.lmode

/-- `rst_n` going low establishes the invariant, whatever it strikes, over a canonical store. -/
theorem inv_resetLow {s : State} (store : s.store.wf = true) : Inv (resetLow s) :=
  ⟨store, rfl, by simp, rfl, fun _ => ⟨rfl, rfl, rfl, rfl, rfl, rfl⟩⟩

theorem Inv.setRst {s : State} (inv : Inv s) (high : Bool) : Inv (setRst high s) := by
  unfold Machine.setRst
  split
  · exact .of_high rfl inv.store inv.tmr inv.seq inv.lmode
  · split
    · exact inv_resetLow inv.store
    · exact inv

/-- Wherever a command is cut, the store is the one it started with, since no command writes it. -/
theorem cutState_store {s t : State} (kept : t.store = s.store) (events micros : Nat) :
    (cutState s t events micros).store = s.store := by
  unfold cutState
  dsimp only
  split
  · exact kept
  · rfl

theorem Inv.presentCut {w : CmdWord} {events micros : Nat} {s t : State} (inv : Inv s)
    (h : presentCut w events micros s = .next t) : Inv t := by
  unfold Machine.presentCut at h
  split at h
  · obtain ⟨u, run, eq⟩ := andThen_eq_next h
    cases eq
    apply inv_resetLow
    rw [cutState_store (answers_of_runWord_eq_next run).store]
    exact inv.store
  · cases h; exact inv.setRst false

/-- SAVE writes the store through `MemWrite` alone (spec/45_host_collaborators.md R194). -/
theorem Inv.save {s t : State} (inv : Inv s) (ready : cmdReady s = true) (h : save s = .next t) : Inv t := by
  by_cases room : s.cur + 13 ≤ s.cfg.eeSize
  · rw [save_eq ready room] at h
    cases h
    exact .of_high ((cmdReady_iff s).mp ready).1 (wf_memWrite (wf_memWrite (wf_memWrite inv.store ..) ..) ..) inv.tmr
      inv.seq inv.lmode
  · simp [Machine.save, storeHasRoom, room] at h

theorem Inv.load {s t : State} (inv : Inv s) (ready : cmdReady s = true) (h : load s = .next t) : Inv t := by
  by_cases room : s.cur + 13 ≤ s.cfg.eeSize
  · rw [load_eq ready room] at h
    cases h
    exact .of_high ((cmdReady_iff s).mp ready).1 inv.store inv.tmr inv.seq inv.lmode
  · simp [Machine.load, storeHasRoom, room] at h

theorem Inv.readF {s t : State} (inv : Inv s) (ready : cmdReady s = true) (h : readF s = .next t) : Inv t := by
  obtain ⟨v, transacted, eq⟩ := andThen_eq_next h
  obtain ⟨u, run, taken⟩ := andThen_eq_next transacted
  cases taken
  cases eq
  exact (inv.runWord ready run).takeResponse.setHostAndFahr _ _

/-- A pseudo-instruction that keeps the invariant from a ready state keeps it from any: otherwise it waits. -/
theorem Inv.runPseudo {a : HostInput} {f : State → Host.Outcome State Fault Refusal} {s t : State} (inv : Inv s)
    (keeps : ∀ {u v : State}, Inv u → cmdReady u = true → f u = .next v → Inv v)
    (h : runPseudo a f s = .next t) : Inv t := by
  unfold Machine.runPseudo at h
  split at h
  · next ready => exact keeps inv.takeResponse ready h
  · cases h; exact inv.setHostAndFahr _ _

/-- Every input of the host keeps the invariant. -/
theorem Inv.runInput {a : HostInput} {s t : State} (inv : Inv s) (h : runInput a s = .next t) : Inv t := by
  cases a with
  | present w => exact inv.presentWord h
  | presentThenReset w events micros => exact inv.presentCut h
  | presentThenClockStop w =>
    unfold Machine.runInput at h
    dsimp only at h
    split at h
    · cases h
    · exact inv.presentWord h
  | take => cases h; exact inv.takeResponse
  | rst high => cases h; exact inv.setRst high
  | save => exact inv.runPseudo Inv.save h
  | load => exact inv.runPseudo Inv.load h
  | readF => exact inv.runPseudo Inv.readF h

/-- Settles O56: a step is the host's next input, or nothing when the list is empty. -/
theorem everyStepKeepsTheInvariant : Obligations.EveryStepKeepsTheInvariant := by
  unfold Obligations.EveryStepKeepsTheInvariant
  intro s t inv h
  unfold step hostStep at h
  split at h
  · cases h; exact inv
  · exact (inv.setHostAndFahr _ _).runInput h

end Sys2Proof.Machine
end

section
/-! PROOFS. How many samples every command takes (spec/30_encoding.md R75), and with it the segment it adds to the line trace
(spec/20_memory.md R60). -/

namespace Sys2Proof.Machine

/-! ### Samples of whole transmissions -/

@[simp] theorem samples_traceWB (cfg : Config) (v : Byte) : samples (traceWB cfg v) = [] :=
  samples_traceSlots cfg v 8 0

@[simp] theorem samples_traceW16 (cfg : Config) (v : BitVec 16) : samples (traceW16 cfg v) = [] :=
  samples_traceSlots cfg v 16 0

@[simp] theorem samples_traceRBs_toList_length (cfg : Config) (v : Vector Byte 9) :
    (samples (traceRBs cfg v.toList)).length = 72 := by
  rw [samples_traceRBs_length, v.length_toList]

/-! ### Commands -/

/-- Between `s` and `t` the trace has gained `n` samples and each has used one answer of the environment
(spec/40_bit_signaling.md R104). The defaults are a command that leaves both as they are. -/
structure TakesSamples (n : Nat) (s t : State) : Prop where
  count : (samples t.trace).length = (samples s.trace).length + n := by rfl
  env : t.env = s.env.drop n := by rfl

/-- `POLL_CONV` takes its one sample while the conversion runs, and none once it is complete
(spec/42_session.md R144). -/
theorem execPollConv_takesSamples {s t : State} (h : execPollConv s = .next t) :
    TakesSamples (sampleCount .pollConv s.conv) s t := by
  cases conv : s.conv with
  | idle => simp [execPollConv, conv] at h
  | complete =>
    rw [execPollConv, conv] at h
    cases h
    exact {}
  | converting =>
    rw [execPollConv, conv] at h
    cases h
    rw [pollConverting_eq conv]
    exact { count := by simp [samples, sampleCount], env := List.drop_one.symm }

theorem execSetRes_takesSamples {r : Word} {s t : State} (h : execSetRes r s = .next t) : TakesSamples 0 s t := by
  by_cases accepted : 9 ≤ r.toNat ∧ r.toNat ≤ 12
  · cases (execSetRes_of_accepted s accepted).symm.trans h
    exact { count := by simp }
  · cases (execSetRes_of_ignored s accepted).symm.trans h
    exact {}

theorem execWrregRes_takesSamples {x : Word} {s t : State} (h : execWrregRes x s = .next t) :
    TakesSamples 0 s t := by
  by_cases byte : x.extractLsb' 8 24 = 0
  · cases (if_pos byte).symm.trans h
    exact {}
  · cases (if_neg byte).symm.trans h
    exact {}

/-- Every command takes the samples that spec/30_encoding.md R75 counts. -/
theorem takesSamples_of_exec_eq_next {i : Instr} {s t : State} (h : exec i s = .next t) :
    TakesSamples (sampleCount i s.conv) s t := by
  cases i with
  | beginSession =>
    cases (execBegin_eq s).symm.trans h
    exact { count := by simp [sampleCount], env := List.drop_one.symm }
  | startConv =>
    cases (execStartConv_eq s).symm.trans h
    exact { count := by simp [sampleCount], env := List.drop_one.symm }
  | pollConv => exact execPollConv_takesSamples h
  | readTemp =>
    obtain ⟨sp', eq⟩ := execReadTemp_eq s
    cases eq.symm.trans h
    exact { count := by simp [sampleCount] }
  | setRes r => exact execSetRes_takesSamples h
  | setAlarm v =>
    cases (execSetAlarm_eq v s).symm.trans h
    exact { count := by simp [sampleCount] }
  | checkAlarm =>
    cases (execCheckAlarm_eq s).symm.trans h
    exact { count := by simp [samples, traceAlarmOpen, sampleCount], env := List.drop_one.symm }
  | paraOff | paraOn =>
    cases h
    exact { count := by simp [line, respond, samples, sampleCount] }
  | wrregRes x => exact execWrregRes_takesSamples h
  | rdregStatus | rdregRes | rdregThr | rdregDevidLo | rdregDevidHi | wrregThr | wrregDevidLo | wrregDevidHi =>
    cases h
    exact {}

/-- Settles O42: the segment and its end mode are of `exec_effect`, its samples are those the whole trace gains. -/
theorem traceSegmentOfEveryCommand : Obligations.TraceSegmentOfEveryCommand := by
  unfold Obligations.TraceSegmentOfEveryCommand
  intro i s defined
  obtain ⟨t, eq, effect⟩ := exec_effect defined
  obtain ⟨seg, trace, lmode⟩ := effect.segment
  obtain ⟨count, env⟩ := takesSamples_of_exec_eq_next eq
  rw [trace, samples_append, List.length_append] at count
  exact ⟨t, seg, eq, trace, effect.pastTraces, Nat.add_left_cancel count, env, lmode⟩

end Sys2Proof.Machine
end

section
/-! PROOFS. The decoder (spec/30_encoding.md R72, R77, R79, R85): what it answers for the two fields of a word, the rows of
the opcode map under their masks, and the ILLEGAL words. -/

namespace Sys2Proof

open Machine

/-! ### The fields of a word -/

/-- A word is its two fields (R72). -/
theorem opField_append_argField (w : CmdWord) : (opField w ++ argField w : CmdWord) = w := by
  have whole := BitVec.extractLsb'_append_extractLsb'_eq_extractLsb' (x := w) (start₁ := 0) (len₁ := 32)
    (start₂ := 32) (len₂ := 8) rfl
  exact whole.trans BitVec.extractLsb'_eq_self

/-- Two fields make a word that has them, and no other word has both. -/
theorem append_eq_iff_fields {op : Byte} {arg : Word} {w : CmdWord} :
    (op ++ arg : CmdWord) = w ↔ opField w = op ∧ argField w = arg := by
  constructor
  · rintro rfl
    exact ⟨BitVec.extractLsb'_append_eq_left, BitVec.extractLsb'_append_eq_right⟩
  · rintro ⟨rfl, rfl⟩
    exact opField_append_argField w

/-! ### What the decoder answers -/

/-- An answer the decoder may give for an opcode and an operand: a well-formed command that has them, or an error when R79
lists them. -/
def DecodesTo (op : Byte) (arg : Word) : Except IllegalWord Instr → Prop
  | .ok i => i.WellFormed ∧ op = i.opcode ∧ arg = i.operand
  | .error _ => illegalByList op.toNat arg

/-- A row of format N or R. -/
theorem DecodesTo.noOperand {op : Byte} {arg : Word} {i : Instr} (hop : op = i.opcode)
    (wf : i.WellFormed := by rfl) (operand : i.operand = 0 := by rfl)
    (format : (0x01 ≤ i.opcode.toNat ∧ i.opcode.toNat ≤ 0x04) ∨ (0x07 ≤ i.opcode.toNat ∧ i.opcode.toNat ≤ 0x09) ∨
      (0x10 ≤ i.opcode.toNat ∧ i.opcode.toNat ≤ 0x14) := by decide) :
    DecodesTo op arg (noOperand op arg i) := by
  unfold Sys2Proof.noOperand
  split
  · next zero => exact ⟨wf, hop, zero.trans operand.symm⟩
  · next nonzero =>
    rw [← hop] at format
    unfold DecodesTo illegalByList
    tauto

/-- `WRREG.RES`, whose operand is a byte (R72). -/
theorem DecodesTo.wrregRes {op : Byte} {arg : Word} (hop : op = 0x21) :
    DecodesTo op arg (if arg.extractLsb' 8 24 = 0 then .ok (.wrregRes arg) else .error .resTooWide) := by
  split
  · next byte => exact ⟨beq_iff_eq.mpr byte, hop, rfl⟩
  · next wide => simpa [DecodesTo, illegalByList, hop] using wide

/-- One comparison of the decoder with the opcode of a row. -/
theorem DecodesTo.ite {op c : Byte} {arg : Word} {row others : Except IllegalWord Instr}
    (hrow : op = c → DecodesTo op arg row) (hothers : op ≠ c → DecodesTo op arg others) :
    DecodesTo op arg (if op = c then row else others) :=
  iteInduction hrow hothers

/-- All the decoder can answer, comparison by comparison; after the last, the opcode is one that R79 lists. -/
theorem decodesTo_decodeFields (op : Byte) (arg : Word) : DecodesTo op arg (decodeFields op arg) := by
  refine .ite (fun hop => .noOperand hop) fun ne01 => .ite (fun hop => .noOperand hop) fun ne02 => ?_
  refine .ite (fun hop => .noOperand hop) fun ne03 => .ite (fun hop => .noOperand hop) fun ne04 => ?_
  refine .ite (⟨rfl, ·, rfl⟩) fun ne05 => .ite (⟨rfl, ·, rfl⟩) fun ne06 => ?_
  refine .ite (fun hop => .noOperand hop) fun ne07 => .ite (fun hop => .noOperand hop) fun ne08 => ?_
  refine .ite (fun hop => .noOperand hop) fun ne09 => .ite (fun hop => .noOperand hop) fun ne10 => ?_
  refine .ite (fun hop => .noOperand hop) fun ne11 => .ite (fun hop => .noOperand hop) fun ne12 => ?_
  refine .ite (fun hop => .noOperand hop) fun ne13 => .ite (fun hop => .noOperand hop) fun ne14 => ?_
  refine .ite .wrregRes fun ne21 => .ite (⟨rfl, ·, rfl⟩) fun ne22 => ?_
  refine .ite (⟨rfl, ·, rfl⟩) fun ne23 => .ite (⟨rfl, ·, rfl⟩) fun ne24 => ?_
  unfold DecodesTo illegalByList
  bv_omega

/-- R79 lists no word of a command, so a word is either listed or decodes. -/
theorem not_illegalByList_of_wellFormed {i : Instr} (wf : i.WellFormed) :
    ¬ illegalByList i.opcode.toNat i.operand := by
  cases i with
  | wrregRes x =>
    have byte : x.extractLsb' 8 24 = 0 := beq_iff_eq.mp wf
    simp [illegalByList, Instr.opcode, Instr.operand, byte]
  | _ => simp [illegalByList, Instr.opcode, Instr.operand]

/-- The decoder finds the command of its own opcode and operand. -/
theorem decodeFields_opcode_operand {i : Instr} (wf : i.WellFormed) :
    decodeFields i.opcode i.operand = .ok i := by
  cases i with
  | wrregRes x => exact if_pos (beq_iff_eq.mp wf)
  | _ => rfl

/-- The decoder inverts the two fields: R85, both ways. -/
theorem decode_eq_ok_iff {w : CmdWord} {i : Instr} :
    decode w = .ok i ↔ i.WellFormed ∧ opField w = i.opcode ∧ argField w = i.operand := by
  constructor
  · intro decoded
    have answer := decodesTo_decodeFields (opField w) (argField w)
    rwa [show decodeFields (opField w) (argField w) = .ok i from decoded] at answer
  · rintro ⟨wf, op, arg⟩
    rw [decode, op, arg, decodeFields_opcode_operand wf]

theorem exists_decode_eq_error_iff {w : CmdWord} :
    (∃ e, decode w = .error e) ↔ illegalByList (opField w).toNat (argField w) := by
  have answer : DecodesTo (opField w) (argField w) (decode w) := decodesTo_decodeFields _ _
  cases decoded : decode w with
  | ok i =>
    obtain ⟨wf, op, arg⟩ := decode_eq_ok_iff.mp decoded
    simpa [op, arg] using not_illegalByList_of_wellFormed wf
  | error e =>
    rw [decoded] at answer
    exact ⟨fun _ => answer, fun _ => ⟨e, rfl⟩⟩

/-! ### The rows of the opcode map -/

/-- A row's mask keeps the whole opcode; what it keeps of the operand must be zero (R77). -/
theorem rowMask_eq (i : Instr) : i.rowMask = (0xFF#8 ++ argField i.rowMask : CmdWord) := by
  cases i <;> simp only [Instr.rowMask] <;> decide

theorem rowMatch_eq (i : Instr) : i.rowMatch = (i.opcode ++ (0 : Word) : CmdWord) := by
  cases i <;> simp only [Instr.rowMatch, Instr.opcode] <;> decide

/-- What a row asks of the two fields of a word. -/
theorem and_rowMask_eq_rowMatch_iff {w : CmdWord} {i : Instr} :
    w &&& i.rowMask = i.rowMatch ↔ opField w = i.opcode ∧ argField w &&& argField i.rowMask = 0 := by
  have keep : opField w &&& 0xFF#8 = opField w := by simpa using BitVec.and_allOnes (x := opField w)
  have masked : w &&& i.rowMask = (opField w ++ (argField w &&& argField i.rowMask) : CmdWord) := by
    conv_lhs => rw [← opField_append_argField w, rowMask_eq, BitVec.and_append, keep]
  obtain ⟨op, arg⟩ := append_eq_iff_fields.mp masked.symm
  rw [rowMatch_eq, eq_comm, append_eq_iff_fields, op, arg]

/-- `WRREG.RES` masks the bits that a well-formed operand leaves zero; every other row masks all bits of a zero operand or
none of a free one (R72, R77). -/
theorem wellFormed_iff_masked {i : Instr} : i.WellFormed ↔ i.operand &&& argField i.rowMask = 0 := by
  cases i with
  | wrregRes x =>
    constructor
    · intro wf
      obtain ⟨row, -, arg⟩ := Laws.RowOf.wrregRes x wf
      rw [← arg]
      exact (and_rowMask_eq_rowMatch_iff.mp row).2
    · intro masked
      have high : (x &&& argField 0xFFFFFFFF00).extractLsb' 8 24 = 0 :=
        (congrArg (BitVec.extractLsb' 8 24) masked).trans rfl
      have ones : (argField 0xFFFFFFFF00).extractLsb' 8 24 = BitVec.allOnes 24 := by decide
      rw [BitVec.extractLsb'_and, ones, BitVec.and_allOnes] at high
      exact beq_iff_eq.mpr high
  | setRes | setAlarm | wrregThr | wrregDevidLo | wrregDevidHi =>
    have free : argField 0xFF00000000 = 0 := by decide
    simp only [Instr.rowMask, free]
    exact iff_of_true rfl BitVec.and_zero
  | _ => exact iff_of_true rfl BitVec.zero_and

/-- The opcode alone fixes the row: the decoder finds the row's name from it. -/
theorem exists_decodeFields_opcode (i : Instr) :
    ∃ k : Instr, decodeFields i.opcode 0 = .ok k ∧ k.mnemonic = i.mnemonic := by
  cases i <;> exact ⟨_, rfl, rfl⟩

theorem mnemonic_eq_of_opcode_eq {i j : Instr} (same : i.opcode = j.opcode) : i.mnemonic = j.mnemonic := by
  obtain ⟨k, decoded, name⟩ := exists_decodeFields_opcode i
  obtain ⟨k', decoded', name'⟩ := exists_decodeFields_opcode j
  rw [same, decoded'] at decoded
  obtain rfl := Except.ok.inj decoded
  exact name.symm.trans name'

/-- Decoding as R77 puts it: the row's match under its mask, and the operand. -/
theorem decode_eq_ok_iff_row {w : CmdWord} {i : Instr} :
    decode w = .ok i ↔ w &&& i.rowMask = i.rowMatch ∧ argField w = i.operand := by
  rw [decode_eq_ok_iff, wellFormed_iff_masked, and_rowMask_eq_rowMatch_iff]
  constructor
  · rintro ⟨masked, op, arg⟩
    exact ⟨⟨op, arg ▸ masked⟩, arg⟩
  · rintro ⟨⟨op, masked⟩, arg⟩
    exact ⟨arg ▸ masked, op, arg⟩

/-! ### The obligations -/

/-- Settles O1: an encoded word has the command's own two fields. -/
theorem decodeOfEncode : Obligations.DecodeOfEncode := by
  unfold Obligations.DecodeOfEncode
  intro i wf
  exact decode_eq_ok_iff.mpr ⟨wf, Laws.fields_encode i⟩

/-- Settles O2: a word is its two fields, and they are the command's. -/
theorem encodeOfDecode : Obligations.EncodeOfDecode := by
  unfold Obligations.EncodeOfDecode
  intro w i decoded
  obtain ⟨wf, fields⟩ := decode_eq_ok_iff.mp decoded
  exact ⟨wf, append_eq_iff_fields.mpr fields⟩

/-- Settles O3: two rows that match one word have its opcode; a word that decodes matches the row of its command. -/
theorem decodeSelectsTheMatchingRow : Obligations.DecodeSelectsTheMatchingRow := by
  unfold Obligations.DecodeSelectsTheMatchingRow
  refine ⟨fun w i => decode_eq_ok_iff_row, fun w i j matchI matchJ => ?_, fun w unmatched => ?_⟩
  · have opI := (and_rowMask_eq_rowMatch_iff.mp matchI).1
    have opJ := (and_rowMask_eq_rowMatch_iff.mp matchJ).1
    exact mnemonic_eq_of_opcode_eq (opI.symm.trans opJ)
  · cases decoded : decode w with
    | ok i => exact absurd (decode_eq_ok_iff_row.mp decoded).1 (unmatched i)
    | error e => exact ⟨e, rfl⟩

/-- Settles O5: the decoder computes each of the eleven. -/
theorem wordsOfTheSpecDecode : Obligations.WordsOfTheSpecDecode := by
  unfold Obligations.WordsOfTheSpecDecode
  decide

end Sys2Proof
end

section
/-! PROOFS. The command port and the host (spec/30_encoding.md R73, R74, R79; spec/60_exceptions.md R211): one equation per
input that the statements speak of. -/

namespace Sys2Proof.Machine

/-- The next input of the host runs, and is off its list. -/
theorem step_of_host {s : State} {a : HostInput} {rest : List HostInput} (hhost : s.host = a :: rest) :
    step s = runInput a { s with host := rest } := by
  rw [step, hostStep, hhost]

/-- A word presented to a ready block runs (R73). -/
theorem step_of_present {s : State} {w : CmdWord} {rest : List HostInput} (hhost : s.host = .present w :: rest)
    (ready : cmdReady s = true) : step s = runWord w { s with host := rest } := by
  rw [step_of_host hhost]
  exact if_pos ready

/-- A word presented to a block that is not ready is lost (R73). -/
theorem step_of_present_of_not_ready {s : State} {w : CmdWord} {rest : List HostInput}
    (hhost : s.host = .present w :: rest) (notReady : cmdReady s = false) :
    step s = .next { s with host := rest } := by
  rw [step_of_host hhost]
  exact if_neg (Bool.eq_false_iff.mp notReady)

theorem runWord_of_ok {w : CmdWord} {i : Instr} (s : State) (decoded : decode w = .ok i) :
    runWord w s = exec i (accept w s) := by
  rw [runWord, decoded]

/-- An ILLEGAL word only answers (R79). -/
theorem runWord_of_error {w : CmdWord} {e : IllegalWord} (s : State) (decoded : decode w = .error e) :
    runWord w s = .next (raiseError .illegal (accept w s)) := by
  rw [runWord, decoded]

theorem takeResponse_of_responding {s : State} {r : Response} (out : s.seq = .responding r) :
    takeResponse s = { s with seq := .idle, received := s.received ++ [r] } := by
  rw [takeResponse, out]

/-- What differs in the state that offers a word: the host has taken any response that was out. -/
theorem offerWord_eq (w : CmdWord) (s : State) :
    offerWord w s =
      { s with
        host := .present w :: s.host
        seq := .idle
        rstN := true
        received := s.received ++ (rspOut s).toList } := by
  rw [offerWord, takeResponse, rspOut]
  cases s.seq <;> simp

/-- Settles O4: the list is `exists_decode_eq_error_iff`, and an ILLEGAL word runs as `runWord_of_error` says. -/
theorem illegalWordsAreThoseListed : Obligations.IllegalWordsAreThoseListed := by
  unfold Obligations.IllegalWordsAreThoseListed
  refine ⟨fun w => exists_decode_eq_error_iff, ⟨.unassigned 0x00, by decide⟩, ⟨.unassigned 0xFF, by decide⟩, ?_⟩
  intro s w rest hhost ready listed
  obtain ⟨e, decoded⟩ := exists_decode_eq_error_iff.mpr listed
  refine ⟨opField w, argField w, ?_⟩
  rw [step_of_present hhost ready, runWord_of_error _ decoded]
  rfl

/-- Settles O6: the word is accepted, then decoded. -/
theorem stepRunsTheDecodedCommand : Obligations.StepRunsTheDecodedCommand := by
  unfold Obligations.StepRunsTheDecodedCommand
  intro s w rest i hhost ready decoded
  rw [step_of_present hhost ready, runWord_of_ok _ decoded]
  rfl

/-- Settles O7: `offerWord` makes the block ready, so the word runs. -/
theorem withFetchWordRunsTheCommand : Obligations.WithFetchWordRunsTheCommand := by
  unfold Obligations.WithFetchWordRunsTheCommand
  intro s w i decoded
  have word : BitVec.ofNat 40 (w.toNat % 2 ^ 40) = w := by
    rw [Nat.mod_eq_of_lt w.isLt, BitVec.ofNat_toNat, BitVec.setWidth_eq]
  rw [State.withFetchWord, word, offerWord_eq, step_of_present rfl rfl, runWord_of_ok _ decoded]
  rfl

/-- Settles O8: the port's equations for a lost word and a taken response, and `hostStep` on an empty list. -/
theorem handshake : Obligations.Handshake := by
  unfold Obligations.Handshake
  refine ⟨fun s w rest => step_of_present_of_not_ready, fun s r rest hhost out => ?_, fun s noInput => ?_⟩
  · refine ⟨_, ?_, rfl, ?_, ?_, rfl⟩
    · rw [step_of_host hhost]
      exact congrArg Host.Outcome.next (takeResponse_of_responding out)
    · simp [cmdReady]
    · simp [busy, cmdReady]
  · rw [step, hostStep, noInput]

/-- Settles O10: `padsOf`, mode by mode. -/
theorem padsAreAFunctionOfTheLineMode : Obligations.PadsAreAFunctionOfTheLineMode := by
  unfold Obligations.PadsAreAFunctionOfTheLineMode
  intro s
  refine ⟨?_, ?_, ?_⟩ <;> (intro mode; rw [pads, mode]; rfl)

end Sys2Proof.Machine
end

section
/-! PROOFS. The one response of a command (spec/30_encoding.md R74; spec/60_exceptions.md R200, R205). -/

namespace Sys2Proof.Machine

/-- The responses R74 allows a command: an OK whose data is 0 if the command returns nothing and a truth value if it returns
one, or, for a command no word encodes, ILLEGAL with data 0. -/
inductive Response.Allowed (i : Instr) : Response → Prop
  | ok (d : Word) (nothing : returnsNothing i = true → d = 0)
      (bool : returnsBool i = true → d = 0 ∨ d = 1) : Allowed i ⟨.ok, d⟩
  | illegal (illFormed : ¬ i.WellFormed) : Allowed i ⟨.illegal, 0⟩

/-- An OK with data 0 is allowed for every command. -/
theorem Response.Allowed.okZero (i : Instr) : Response.Allowed i ⟨.ok, 0⟩ :=
  .ok 0 (fun _ => rfl) (fun _ => .inl rfl)

/-- A command that returns a boolean returns something. -/
theorem Response.Allowed.okBool {i : Instr} (b : Bool) (something : returnsNothing i = false := by rfl) :
    Response.Allowed i ⟨.ok, boolData b⟩ :=
  .ok _ (by simp [something]) (by cases b <;> simp [boolData])

/-- A command that returns a word may return any. -/
theorem Response.Allowed.okWord {i : Instr} (d : Word) (something : returnsNothing i = false := by rfl)
    (noBool : returnsBool i = false := by rfl) : Response.Allowed i ⟨.ok, d⟩ :=
  .ok d (by simp [something]) (by simp [noBool])

/-- A command answers an allowed response. -/
def AnswersAllowed (i : Instr) (s : State) : Prop :=
  ∃ t r, exec i s = .next t ∧ t.seq = .responding r ∧ Response.Allowed i r

theorem pollConv_answersAllowed {s : State} (running : s.conv ≠ .idle) : AnswersAllowed .pollConv s := by
  cases conv : s.conv with
  | idle => exact absurd conv running
  | complete =>
    exact ⟨respond .ok (boolData true) s, _, by rw [exec, execPollConv, conv], rfl, .okBool true⟩
  | converting =>
    refine ⟨pollConverting s, ⟨.ok, boolData (sampleValue s)⟩, by rw [exec, execPollConv, conv], ?_, .okBool _⟩
    rw [pollConverting_eq conv]

theorem setRes_answersAllowed (r : Word) (s : State) : AnswersAllowed (.setRes r) s := by
  by_cases accepted : 9 ≤ r.toNat ∧ r.toNat ≤ 12
  · exact ⟨_, _, execSetRes_of_accepted s accepted, rfl, .okZero _⟩
  · exact ⟨_, _, execSetRes_of_ignored s accepted, rfl, .okZero _⟩

theorem wrregRes_answersAllowed (x : Word) (s : State) : AnswersAllowed (.wrregRes x) s := by
  by_cases byte : x.extractLsb' 8 24 = 0
  · exact ⟨_, _, if_pos byte, rfl, .okZero _⟩
  · exact ⟨_, _, if_neg byte, rfl, .illegal fun wf => byte (beq_iff_eq.mp wf)⟩

/-- Every command the spec defines in a state answers as R74 says. -/
theorem answersAllowed {i : Instr} {s : State} (defined : Defined i s) : AnswersAllowed i s := by
  cases i with
  | beginSession => exact ⟨_, _, execBegin_eq s, rfl, .okZero _⟩
  | startConv => exact ⟨_, _, execStartConv_eq s, rfl, .okZero _⟩
  | pollConv => exact pollConv_answersAllowed (defined rfl)
  | readTemp =>
    obtain ⟨sp', eq⟩ := execReadTemp_eq s
    exact ⟨_, _, eq, rfl, .okWord _⟩
  | setRes r => exact setRes_answersAllowed r s
  | setAlarm v => exact ⟨_, _, execSetAlarm_eq v s, rfl, .okZero _⟩
  | checkAlarm => exact ⟨_, _, execCheckAlarm_eq s, rfl, .okBool _⟩
  | wrregRes x => exact wrregRes_answersAllowed x s
  | paraOff | paraOn | wrregThr | wrregDevidLo | wrregDevidHi => exact ⟨_, _, rfl, rfl, .okZero _⟩
  | rdregStatus | rdregRes | rdregThr | rdregDevidLo | rdregDevidHi => exact ⟨_, _, rfl, rfl, .okWord _⟩

/-- A block with a response out is not ready for a word. -/
theorem cmdReady_of_responding {s : State} {r : Response} (out : s.seq = .responding r) : cmdReady s = false := by
  simp [cmdReady, out]

theorem codeBits_ne_three (c : RespCode) : codeBits c ≠ 3 := by
  cases c <;> decide

/-- Settles O9: one response by `answersAllowed`, and nothing received meanwhile by `exec_effect`. -/
theorem everyCommandAnswersOnce : Obligations.EveryCommandAnswersOnce := by
  unfold Obligations.EveryCommandAnswersOnce
  constructor
  · intro i s defined
    obtain ⟨t, r, eq, out, allowed⟩ := answersAllowed defined
    have received : t.received = s.received := (effect_of_exec_eq_next eq).received
    refine ⟨t, r, eq, out, received, cmdReady_of_responding out, ?_⟩
    cases allowed with
    | ok d nothing bool => simpa using ⟨nothing, bool⟩
    | illegal illFormed => simpa using illFormed
  · intro r
    exact ⟨BitVec.extractLsb'_append_eq_left, BitVec.extractLsb'_append_eq_right, codeBits_ne_three r.code, rfl, rfl, rfl⟩

end Sys2Proof.Machine
end

section
/-! PROOFS. The bit-level signaling (spec/40_bit_signaling.md R103, R106, R108, R110): what a sample reads, and the three
micro-operations with their traces at the default timing. -/

namespace Sys2Proof.Machine

/-! ### The next answer of a script -/

theorem envAnswer_of_script {s : State} {e : Bool} {es : List Bool} (script : s.env = e :: es) : envAnswer s = e := by
  rw [envAnswer, script]

theorem presenceAnswer_of_script {s : State} {e : Bool} {es : List Bool} (script : s.env = e :: es) :
    presenceAnswer s = e :=
  answerAt_of_script _ script

theorem readAnswer_of_script {s : State} {e : Bool} {es : List Bool} (script : s.env = e :: es) : readAnswer s = e :=
  answerAt_of_script _ script

/-! ### What a sample reads, by line mode -/

theorem sampleValue_of_rel {s : State} (mode : s.lmode = .rel) : sampleValue s = envAnswer s := by
  rw [sampleValue, mode, level]

theorem sampleValue_of_low {s : State} (mode : s.lmode = .low) : sampleValue s = false := by
  rw [sampleValue, mode, level]

/-- Against a driven HIGH, an answer of 0 is contention. -/
theorem sampleValue_of_high {s : State} (mode : s.lmode = .high) :
    sampleValue s = if envAnswer s then true else Config.contention s.draws := by
  rw [sampleValue, mode, level]

/-! ### The traces at the default timing, up to merged waits (spec/00_scope.md R11) -/

theorem sameTrace_traceRST_default (p : Bool) :
    SameTrace (traceRST Config.default p)
      ([.drive .low, .wait 480, .drive .rel, .wait 60, .sample p] ++
        (if p then [.wait 420] else [.drive .high, .wait 420])) := by
  cases p <;> rfl

/-- The two last waits of a 1 are adjacent: the rest of the slot and the recovery. -/
theorem sameTrace_traceW_one_default :
    SameTrace (traceW Config.default true) [.drive .low, .wait 2, .drive .rel, .wait 68] := rfl

/-- The two first waits of a 0 are adjacent: together they are the slot. -/
theorem sameTrace_traceW_zero_default :
    SameTrace (traceW Config.default false) [.drive .low, .wait 60, .drive .rel, .wait 10] := rfl

theorem sameTrace_traceR_default (e : Bool) :
    SameTrace (traceR Config.default e) [.drive .low, .wait 2, .drive .rel, .wait 15, .sample e, .wait 43] := rfl

/-! ### The obligations -/

/-- Settles O11: the value is `sampleValue`, mode by mode, and the free one is the contention draw. -/
theorem sampleReadsTheLevel : Obligations.SampleReadsTheLevel := by
  unfold Obligations.SampleReadsTheLevel
  exact ⟨fun s => ⟨sampleValue s, Config.contention s.draws, rfl, sampleValue_of_rel, sampleValue_of_low,
    sampleValue_of_high⟩, fun _ _ _ => envAnswer_of_script⟩

/-- Settles O12: the equation of the operation (whose own name is `presenceReset`), its trace at the defaults, and the sum
of its three phases. -/
theorem presenceReset_holds : Obligations.PresenceReset := by
  unfold Obligations.PresenceReset
  exact ⟨presenceReset_eq, fun _ _ _ => presenceAnswer_of_script, sameTrace_traceRST_default,
    fun p => duration_traceRST Config.default p⟩

/-- Settles O13: the two slots' equations, their traces at the defaults, and the sums of their phases. -/
theorem bitSlots : Obligations.BitSlots := by
  unfold Obligations.BitSlots
  refine ⟨fun s b => writeBitSlot_eq b s, readBitSlot_eq, fun _ _ _ => readAnswer_of_script,
    sameTrace_traceW_one_default, sameTrace_traceW_zero_default, sameTrace_traceR_default, fun b => ⟨?_, ?_⟩⟩
  · have pulseFits : Config.default.tLow ≤ Config.default.tSlot := by decide
    exact duration_traceW Config.default b pulseFits
  · exact duration_traceR Config.default b

end Sys2Proof.Machine
end

section
/-! PROOFS. The byte framing (spec/41_byte_framing.md R130 to R134): the slots of a byte as a list of slots, how long they last
at the defaults, and what the line carries determining the bits. -/

namespace Sys2Proof.Machine

/-! ### The slots of a pattern, bit by bit -/

theorem traceSlots_eq_flatMap (cfg : Config) {w : Nat} (v : BitVec w) (n i : Nat) :
    traceSlots cfg v n i = ((List.range' i n).map v.getLsbD).flatMap (traceW cfg) := by
  induction n generalizing i with
  | zero => rfl
  | succ n ih => rw [traceSlots, ih, List.range'_succ, List.map_cons, List.flatMap_cons]

theorem traceReads_eq_flatMap (cfg : Config) {w : Nat} (v : BitVec w) (n i : Nat) :
    traceReads cfg v n i = ((List.range' i n).map v.getLsbD).flatMap (traceR cfg) := by
  induction n generalizing i with
  | zero => rfl
  | succ n ih => rw [traceReads, ih, List.range'_succ, List.map_cons, List.flatMap_cons]

theorem traceWB_eq_flatMap (cfg : Config) (v : Byte) : traceWB cfg v = (byteBits v).flatMap (traceW cfg) := by
  rw [traceWB, traceSlots_eq_flatMap, byteBits, List.range_eq_range']

theorem traceRB_eq_flatMap (cfg : Config) (v : Byte) : traceRB cfg v = (byteBits v).flatMap (traceR cfg) := by
  rw [traceRB, traceReads_eq_flatMap, byteBits, List.range_eq_range']

theorem traceW16_eq_flatMap (cfg : Config) (v : BitVec 16) :
    traceW16 cfg v = ((List.range 16).map v.getLsbD).flatMap (traceW cfg) := by
  rw [traceW16, traceSlots_eq_flatMap, List.range_eq_range']

/-- Nothing stands between the eighth slot and the ninth (R132). -/
theorem traceW16_eq_traceWB_append (cfg : Config) (v : BitVec 16) :
    traceW16 cfg v = traceWB cfg (v.extractLsb' 0 8) ++ traceWB cfg (v.extractLsb' 8 8) := by
  have low : traceSlots cfg v 8 0 = traceWB cfg (v.extractLsb' 0 8) :=
    traceSlots_congr _ _ _ _ _ _ fun k hk => by simp [hk]
  have high : traceSlots cfg v 8 (0 + 8) = traceWB cfg (v.extractLsb' 8 8) :=
    traceSlots_congr _ _ _ _ _ _ fun k hk => by simp [hk]
  rw [traceW16, traceSlots_add cfg v 8 8 0, low, high]

/-! ### Durations at the defaults -/

theorem duration_traceSlots_default {w : Nat} (v : BitVec w) (n i : Nat) :
    duration (traceSlots Config.default v n i) = n * 70 := by
  have pulseFits : Config.default.tLow ≤ Config.default.tSlot := by decide
  exact duration_traceSlots Config.default v n i pulseFits

theorem duration_traceReads_default {w : Nat} (v : BitVec w) (n i : Nat) :
    duration (traceReads Config.default v n i) = n * 60 :=
  duration_traceReads Config.default v n i

/-! ### The line determines the bits -/

theorem traceW_length (cfg : Config) (b : Bool) : (traceW cfg b).length = 5 := by
  cases b <;> rfl

/-- The two write slots differ in their third event: a 1 releases the line there, a 0 still waits (R108). -/
theorem traceW_injective (cfg : Config) : Function.Injective (traceW cfg) := by
  intro b c h
  cases b <;> cases c <;> simp [traceW] at h ⊢

/-- All slots have one length, so the sequence is cut into its slots in one way only. -/
theorem flatMap_traceW_injective (cfg : Config) : Function.Injective (List.flatMap (traceW cfg)) := by
  intro bs cs h
  induction bs generalizing cs with
  | nil =>
    cases cs with
    | nil => rfl
    | cons c cs => simpa [traceW_length] using congrArg List.length h.symm
  | cons b bs ih =>
    cases cs with
    | nil => simpa [traceW_length] using congrArg List.length h
    | cons c cs =>
      rw [List.flatMap_cons, List.flatMap_cons] at h
      obtain ⟨slot, slots⟩ := List.append_inj h (by rw [traceW_length, traceW_length])
      rw [traceW_injective cfg slot, ih slots]

/-- The trace of `writeByte(v)` is that of the bits of `v` and of no others. -/
theorem eq_byteBits_of_writeByte_trace {v : Byte} {u : State} {bits : List Bool}
    (sent : (writeByte v u).trace = u.trace ++ bits.flatMap (traceW u.cfg)) : bits = byteBits v := by
  rw [writeByte_eq] at sent
  have slots : traceWB u.cfg v = bits.flatMap (traceW u.cfg) := List.append_cancel_left sent
  rw [traceWB_eq_flatMap] at slots
  exact flatMap_traceW_injective u.cfg slots.symm

/-! ### The obligations -/

/-- Settles O14: the equation of the operation, its slots listed, and eight times the length of a write slot. -/
theorem writeByteSendsEightSlots : Obligations.WriteByteSendsEightSlots := by
  unfold Obligations.WriteByteSendsEightSlots
  refine ⟨fun s v => ⟨0, ?_⟩, fun v => ?_⟩
  · rw [writeByte_eq, traceWB_eq_flatMap]
  · rw [← traceWB_eq_flatMap, traceWB, duration_traceSlots_default]

/-- Settles O15: the byte is the one left in `ACC`. -/
theorem readByteAssemblesEightSamples : Obligations.ReadByteAssemblesEightSamples := by
  unfold Obligations.ReadByteAssemblesEightSamples
  refine ⟨fun s => ⟨(readByte s).acc, 0, ?_⟩, fun v => ?_⟩
  · rw [← traceRB_eq_flatMap]
    exact readByte_eq s
  · rw [← traceRB_eq_flatMap, traceRB, duration_traceReads_default]

/-- Settles O16: the equation of the operation, and its slots split after the eighth. -/
theorem writeBits16IsTwoBytes : Obligations.WriteBits16IsTwoBytes := by
  unfold Obligations.WriteBits16IsTwoBytes
  refine ⟨fun s v => ⟨0, ?_, ?_⟩, fun v => ?_⟩
  · rw [writeBits16_eq, traceW16_eq_flatMap]
  · rw [writeBits16_eq, writeByte_eq, writeByte_eq, traceW16_eq_traceWB_append, List.append_assoc]
  · rw [← traceW16_eq_flatMap, traceW16, duration_traceSlots_default]

/-- Settles O17: the bits that were sent can only be those of `v`, and `readByte` assembles them to `v`. -/
theorem readByteInvertsWriteByte : Obligations.ReadByteInvertsWriteByte := by
  unfold Obligations.ReadByteInvertsWriteByte
  intro s u v bits rest sent eight script
  obtain rfl : bits = byteBits v := eq_byteBits_of_writeByte_trace sent
  refine ⟨readByte_of_script s v rest script, ?_⟩
  rw [readByte_eq, script]
  exact List.drop_left' eight

end Sys2Proof.Machine
end

section
/-! PROOFS. The session commands BEGIN, START_CONV and POLL_CONV (spec/42_session.md R140 to R145), the conversion state
machine (R149), and how long the commands last at the defaults. -/

namespace Sys2Proof.Machine

/-! ### Durations at the defaults -/

theorem duration_traceRST_default (p : Bool) : duration (traceRST Config.default p) = 960 :=
  duration_traceRST Config.default p

/-- A presence reset and one command byte (R141) last 1520 µs, whatever the sensor answers and whatever the byte is. -/
theorem duration_commandSequence_default (p : Bool) (c : Byte) :
    duration (traceRST Config.default p ++ (byteBits c).flatMap (traceW Config.default)) = 1520 := by
  rw [← traceWB_eq_flatMap, traceWB, duration_append, duration_traceRST_default, duration_traceSlots_default]

/-! ### `POLL_CONV`, by conversion state (R149) -/

/-- The fault that R145 asks of a model. -/
theorem execPollConv_of_idle {s : State} (idle : s.conv = .idle) : execPollConv s = .fault .undefSeq := by
  rw [execPollConv, idle]

theorem execPollConv_of_converting {s : State} (converting : s.conv = .converting) :
    execPollConv s = .next (pollConverting s) := by
  rw [execPollConv, converting]

theorem execPollConv_of_complete {s : State} (complete : s.conv = .complete) :
    execPollConv s = .next (respond .ok 1 s) := by
  rw [execPollConv, complete]; rfl

/-! ### The other commands keep `CONV` (R149) -/

theorem execSetRes_keeps_conv (r : Word) (s : State) : ∃ t, execSetRes r s = .next t ∧ t.conv = s.conv := by
  by_cases accepted : 9 ≤ r.toNat ∧ r.toNat ≤ 12
  · exact ⟨_, execSetRes_of_accepted s accepted, rfl⟩
  · exact ⟨_, execSetRes_of_ignored s accepted, rfl⟩

theorem execWrregRes_keeps_conv (x : Word) (s : State) : ∃ t, execWrregRes x s = .next t ∧ t.conv = s.conv := by
  by_cases byte : x.extractLsb' 8 24 = 0
  · exact ⟨_, if_pos byte, rfl⟩
  · exact ⟨_, if_neg byte, rfl⟩

/-- Only `START_CONV` and `POLL_CONV` move the conversion state machine. -/
theorem exec_keeps_conv {i : Instr} (s : State) (notStart : i ≠ .startConv) (notPoll : i ≠ .pollConv) :
    ∃ t, exec i s = .next t ∧ t.conv = s.conv := by
  cases i with
  | startConv => exact absurd rfl notStart
  | pollConv => exact absurd rfl notPoll
  | beginSession => exact ⟨_, execBegin_eq s, rfl⟩
  | readTemp =>
    obtain ⟨sp', eq⟩ := execReadTemp_eq s
    exact ⟨_, eq, rfl⟩
  | setRes r => exact execSetRes_keeps_conv r s
  | setAlarm v => exact ⟨_, execSetAlarm_eq v s, rfl⟩
  | checkAlarm => exact ⟨_, execCheckAlarm_eq s, rfl⟩
  | wrregRes x => exact execWrregRes_keeps_conv x s
  | paraOff | paraOn | rdregStatus | rdregRes | rdregThr | rdregDevidLo | rdregDevidHi | wrregThr | wrregDevidLo
  | wrregDevidHi => exact ⟨_, rfl, rfl⟩

/-! ### The obligations -/

/-- Settles O18: the command's equation, and the two facts of its trace. -/
theorem beginResult : Obligations.BeginResult := by
  unfold Obligations.BeginResult
  exact ⟨by decide, execBegin_eq, fun p => ⟨duration_traceRST_default p, samples_traceRST Config.default p⟩⟩

/-- Settles O19: the command's equation, its byte listed slot by slot, and the length of a command sequence. -/
theorem startConvResult : Obligations.StartConvResult := by
  unfold Obligations.StartConvResult
  refine ⟨by decide, fun s => ⟨0, ?_⟩, by decide, fun p => duration_commandSequence_default p _⟩
  rw [exec, execStartConv_eq, traceWB_eq_flatMap, ← List.append_assoc]

/-- Settles O20: `pollConverting_eq`, and what a sample reads in each line mode. -/
theorem pollWhileConverting : Obligations.PollWhileConverting := by
  unfold Obligations.PollWhileConverting
  refine ⟨by decide, fun s converting => ?_, fun s e es script => ⟨fun rel => ?_, sampleValue_of_low, fun high one => ?_⟩⟩
  · rw [exec, execPollConv_of_converting converting, pollConverting_eq converting]
    rfl
  · rw [sampleValue_of_rel rel, envAnswer_of_script script]
  · rw [sampleValue_of_high high, envAnswer_of_script script, if_pos one]

/-- Settles O21: the row of a complete conversion. -/
theorem pollAfterComplete : Obligations.PollAfterComplete := by
  unfold Obligations.PollAfterComplete
  exact fun s => execPollConv_of_complete

/-- Settles O22: the row of the poll in IDLE, and the word that runs it. -/
theorem pollInIdleIsAFault : Obligations.PollInIdleIsAFault := by
  unfold Obligations.PollInIdleIsAFault
  refine ⟨fun s => execPollConv_of_idle, fun s rest hhost ready idle => ?_⟩
  have decoded : decode 0x0300000000 = .ok .pollConv := by decide
  rw [step_of_present hhost ready, runWord_of_ok _ decoded]
  exact execPollConv_of_idle idle

/-- Settles O23: row by row, from the commands' equations, `exec_keeps_conv` and the reset of the host's port. -/
theorem conversionStateMachine : Obligations.ConversionStateMachine := by
  unfold Obligations.ConversionStateMachine
  refine ⟨fun s => ⟨_, execStartConv_eq s, rfl, rfl, List.drop_one.symm⟩, fun s => execPollConv_of_idle,
    fun s converting => ⟨_, execPollConv_of_converting converting, ?_⟩,
    fun s complete => ⟨_, execPollConv_of_complete complete, complete, rfl, rfl⟩,
    fun i s => exec_keeps_conv s, fun s rest hhost high => ?_⟩
  · rw [pollConverting_eq converting]
    refine ⟨List.drop_one.symm, ?_⟩
    cases value : sampleValue s
    · exact .inl ⟨rfl, rfl, rfl⟩
    · exact .inr ⟨rfl, rfl, rfl⟩
  · refine ⟨resetLow { s with host := rest }, ?_, rfl, rfl, rfl⟩
    rw [step_of_host hhost]
    exact congrArg Host.Outcome.next (if_pos high)

end Sys2Proof.Machine
end

section
/-! PROOFS. READ_TEMP (spec/42_session.md R146 to R148): the trace as a list of slots, the nine bytes the environment's
answers make, the exact temperature, and what the nine bytes do not depend on. -/

namespace Sys2Proof.Machine

/-! ### The slots of several bytes -/

theorem traceRBs_eq_flatMap (cfg : Config) (vs : List Byte) :
    traceRBs cfg vs = (vs.flatMap byteBits).flatMap (traceR cfg) := by
  induction vs with
  | nil => rfl
  | cons v vs ih => rw [traceRBs, traceRB_eq_flatMap, ih, List.flatMap_cons, List.flatMap_append]

theorem bytesBits_eq_flatMap (vs : List Byte) : bytesBits vs = vs.flatMap byteBits := by
  induction vs with
  | nil => rfl
  | cons v vs ih => rw [bytesBits, ih, List.flatMap_cons]

theorem bytesBits_length (vs : List Byte) : (bytesBits vs).length = 8 * vs.length := by
  induction vs with
  | nil => rfl
  | cons v vs ih => rw [bytesBits, List.length_append, byteBits_length, ih, List.length_cons, Nat.mul_succ, Nat.add_comm]

theorem duration_traceRBs_default (vs : List Byte) : duration (traceRBs Config.default vs) = vs.length * 480 :=
  duration_traceRBs Config.default vs

/-! ### The bytes and the response -/

/-- The response is made of the parameters and the bytes left in `SP` (R146). -/
theorem rspOut_of_execReadTemp {s t : State} (h : execReadTemp s = .next t) :
    rspOut t = some ⟨.ok, if t.sp[0] = 0x28 then decodeTemp s.cfg t.sp else 0x7FC00000⟩ := by
  obtain ⟨sp', eq⟩ := execReadTemp_eq s
  cases eq.symm.trans h
  rw [← readTempData_eq]
  rfl

/-- After one answer for the presence sample, the answers that are the bits of nine bytes leave those in `SP`. -/
theorem sp_of_execReadTemp_of_script {s t : State} {p : Bool} {vs : Vector Byte 9} {rest : List Bool}
    (h : execReadTemp s = .next t) (script : s.env = p :: (bytesBits vs.toList ++ rest)) : t.sp = vs := by
  cases h
  refine readScratchpad_of_script _ vs rest ?_
  rw [commandSequence_eq, script]
  rfl

/-! ### The temperature (R147) -/

section
variable (cfg : Config) (sp : Vector Byte 9)

theorem tempWord_toNat : (tempWord cfg sp).toNat = 256 * sp[cfg.thiIdx].toNat + sp[cfg.tloIdx].toNat := by
  rw [tempWord, BitVec.toNat_append, ← Nat.shiftLeft_add_eq_or_of_lt sp[cfg.tloIdx].isLt, Nat.shiftLeft_eq, Nat.mul_comm]

/-- `tempInt` is the quotient rounded toward minus infinity. -/
theorem tempInt_floor :
    tempInt cfg sp * 2 ^ (cfg.tempShift : Nat) ≤ (tempWord cfg sp).toInt ∧
      (tempWord cfg sp).toInt < (tempInt cfg sp + 1) * 2 ^ (cfg.tempShift : Nat) :=
  have positive : (0 : Int) < 2 ^ (cfg.tempShift : Nat) := by positivity
  ⟨Int.ediv_mul_le _ positive.ne', Int.lt_ediv_add_one_mul_self _ positive⟩

/-- A 16-bit word stays in 16 bits whatever the shift. -/
theorem tempInt_natAbs_lt : (tempInt cfg sp).natAbs < 2 ^ 16 := by
  have quotient : (tempInt cfg sp).natAbs ≤ (tempWord cfg sp).toInt.natAbs := Int.natAbs_ediv_le_natAbs _ _
  have low := BitVec.le_toInt (tempWord cfg sp)
  have high := BitVec.toInt_lt (x := tempWord cfg sp)
  omega

/-- Twelve bits remain of a word shifted by the default. -/
theorem tempInt_range_of_shift_four (shift : cfg.tempShift = 4) : -2048 ≤ tempInt cfg sp ∧ tempInt cfg sp ≤ 2047 := by
  obtain ⟨below, above⟩ := tempInt_floor cfg sp
  have low := BitVec.le_toInt (tempWord cfg sp)
  have high := BitVec.toInt_lt (x := tempWord cfg sp)
  rw [shift] at below above
  norm_num at below above low high
  omega

/-- The pattern's real value is exactly `t`/16, in units of `2^-149`. -/
theorem decodeTemp_exact :
    isFinite (decodeTemp cfg sp) = true ∧ f32Scaled (decodeTemp cfg sp) = tempInt cfg sp * 2 ^ 145 := by
  rw [decodeTemp_eq]
  exact f32_roundtrip _ (f32Holds_sixteenths _ (tempInt_natAbs_lt cfg sp))

theorem decodeTemp_of_zero (zero : tempInt cfg sp = 0) : decodeTemp cfg sp = 0x00000000 := by
  rw [decodeTemp_eq, zero, Int.zero_mul]
  decide

/-- Negative zero would be exact for `t` = 0 only, and that gives +0.0. -/
theorem decodeTemp_ne_negZero : decodeTemp cfg sp ≠ 0x80000000 := by
  intro negZero
  have scaled : tempInt cfg sp * 2 ^ 145 = f32Scaled 0x80000000 := by rw [← negZero, (decodeTemp_exact cfg sp).2]
  have zero : tempInt cfg sp = 0 := by
    rw [show f32Scaled 0x80000000 = 0 by decide] at scaled
    omega
  rw [decodeTemp_of_zero cfg sp zero] at negZero
  exact absurd negZero (by decide)

end

/-! ### What the nine bytes do not depend on (R148)

The micro-operations neither read the settings, `CONV` and `PRES`, nor write them, but for the presence reset, which writes
`PRES`: a change of these five commutes with each of them. -/

section
variable (res : Byte) (thr : Word) (devid : Vector Byte 8) (conv : ConvState) (pres : Bool)

/-- A state with the settings, `CONV` and `PRES` replaced. -/
def withUnread (s : State) : State := { s with res := res, thr := thr, devid := devid, conv := conv, pres := pres }

theorem readBitSlot_withUnread (s : State) :
    readBitSlot (withUnread res thr devid conv pres s) = withUnread res thr devid conv pres (readBitSlot s) := rfl

theorem shiftIn_withUnread (n i : Nat) (s : State) :
    shiftIn n i (withUnread res thr devid conv pres s) = withUnread res thr devid conv pres (shiftIn n i s) := by
  induction n generalizing i s with
  | zero => rfl
  | succ n ih =>
    rw [shiftIn, readBitSlot_withUnread]
    exact ih (i + 1)
      { readBitSlot s with
        acc := (readBitSlot s).acc ||| ((BitVec.ofBool (readBitSlot s).smp).setWidth 8 <<< i)
        bitcnt := (readBitSlot s).bitcnt - 1 }

theorem readByte_withUnread (s : State) :
    readByte (withUnread res thr devid conv pres s) = withUnread res thr devid conv pres (readByte s) :=
  shiftIn_withUnread res thr devid conv pres 8 0 { s with acc := 0, bitcnt := 8 }

theorem readBytes_withUnread (n i : Nat) (s : State) :
    readBytes n i (withUnread res thr devid conv pres s) = withUnread res thr devid conv pres (readBytes n i s) := by
  induction n generalizing i s with
  | zero => rfl
  | succ n ih =>
    rw [readBytes, readByte_withUnread]
    exact ih (i + 1)
      { readByte s with sp := (readByte s).sp.setIfInBounds i (readByte s).acc, bytecnt := (readByte s).bytecnt + 1 }

theorem readScratchpad_withUnread (s : State) :
    readScratchpad (withUnread res thr devid conv pres s) = withUnread res thr devid conv pres (readScratchpad s) :=
  readBytes_withUnread res thr devid conv pres s.cfg.spLen 0 { s with bytecnt := 0 }

theorem commandSequence_withUnread (c : Byte) (s : State) :
    commandSequence c (withUnread res thr devid conv pres s) =
      withUnread res thr devid conv (!presenceAnswer s) (commandSequence c s) := by
  rw [commandSequence_eq, commandSequence_eq]
  rfl

/-- The changed state runs alike, and `PRES` ends as the presence sample says. -/
theorem execReadTemp_withUnread (s : State) :
    ∃ t, execReadTemp s = .next t ∧
      execReadTemp (withUnread res thr devid conv pres s) =
        .next (withUnread res thr devid conv (!presenceAnswer s) t) := by
  refine ⟨_, rfl, ?_⟩
  rw [execReadTemp, commandSequence_withUnread, readScratchpad_withUnread]
  rfl

end

/-! ### The obligations -/

/-- Settles O24: the command's equation with its trace listed slot by slot; the trace is a command sequence and 72 read
slots. -/
theorem readTempResult : Obligations.ReadTempResult := by
  unfold Obligations.ReadTempResult
  refine ⟨by decide, fun s => ?_, by decide, fun p sp => ⟨?_, ?_⟩⟩
  · obtain ⟨sp', eq⟩ := execReadTemp_eq s
    refine ⟨sp', sp'[8], 0, 9, ?_⟩
    rw [exec, eq, readTempData_eq, traceWB_eq_flatMap, traceRBs_eq_flatMap, ← List.append_assoc, ← List.append_assoc]
  · rw [duration_append, duration_commandSequence_default, ← traceRBs_eq_flatMap, duration_traceRBs_default,
      sp.length_toList]
  · rw [← traceWB_eq_flatMap, ← traceRBs_eq_flatMap]
    simp

/-- Settles O25: the script makes the bytes, and the bytes the response. -/
theorem readTempOfASensorThatSends : Obligations.ReadTempOfASensorThatSends := by
  unfold Obligations.ReadTempOfASensorThatSends
  intro s p vs rest script
  rw [← bytesBits_eq_flatMap] at script
  obtain ⟨sp', eq⟩ := execReadTemp_eq s
  have sp : sp' = vs := sp_of_execReadTemp_of_script eq script
  have rsp := rspOut_of_execReadTemp eq
  refine ⟨_, eq, sp, ?_, ?_, rfl, sp ▸ rsp⟩
  · rw [presenceAnswer_of_script script]
  · have nine : (bytesBits vs.toList).length = 72 := by rw [bytesBits_length, vs.length_toList]
    rw [script, List.drop_succ_cons, List.drop_left' nine]

/-- Settles O26: the word, the floor, the exact pattern, zero, and the default range. -/
theorem decodeTempIsExact : Obligations.DecodeTempIsExact := by
  unfold Obligations.DecodeTempIsExact
  intro cfg sp
  obtain ⟨below, above⟩ := tempInt_floor cfg sp
  obtain ⟨finite, scaled⟩ := decodeTemp_exact cfg sp
  exact ⟨tempWord_toNat cfg sp, below, above, finite, scaled, decodeTemp_of_zero cfg sp, decodeTemp_ne_negZero cfg sp,
    tempInt_range_of_shift_four cfg sp⟩

/-- Settles O27: a change of what is not read commutes with the command, and the response is made of the bytes. -/
theorem readTempDependsOnTheBytesOnly : Obligations.ReadTempDependsOnTheBytesOnly := by
  unfold Obligations.ReadTempDependsOnTheBytesOnly
  constructor
  · intro s res thr devid conv pres
    obtain ⟨t, eq, changed⟩ := execReadTemp_withUnread res thr devid conv pres s
    exact ⟨t, _, eq, changed, rfl, rfl, rfl⟩
  · intro s s' t t' h h' cfg sp
    rw [rspOut_of_execReadTemp h, rspOut_of_execReadTemp h', cfg, sp]

end Sys2Proof.Machine
end

section
/-! PROOFS. The configuration, alarm and power commands (spec/43_config_alarm_power.md): SET_RES and its four patterns
(R160, R161), SET_ALARM and the rounding of its operand (R163 to R165), CHECK_ALARM (R167), PARA_OFF and PARA_ON (R170,
R171). -/

namespace Sys2Proof.Machine

/-! ### The pattern of `SET_RES` (R160) -/

/-- From 9 up the subtraction does not wrap, and the shift multiplies by 32. -/
theorem resPattern_eq_ofNat (cfg : Config) {r : Word} (atLeast : 9 ≤ r.toNat) :
    resPattern cfg r = BitVec.ofNat 8 ((r.toNat - 9) * 32) := by
  have noWrap : (r - 9#32).toNat = r.toNat - 9 := BitVec.toNat_sub_of_le (BitVec.le_def.mpr atLeast)
  apply BitVec.eq_of_toNat_eq
  rw [resPattern_eq, BitVec.extractLsb'_toNat, BitVec.toNat_shiftLeft, noWrap, BitVec.toNat_ofNat, Nat.shiftLeft_eq]
  omega

/-! ### The rounding of `SET_ALARM` (R164)

Magnitude and rounded magnitude carry the sign of the operand, so what is said of the magnitudes by one division is said of
both signs. -/

/-- `roundSixteenths m` is the integer within a half of `m / 2^145`, the upper of two such. -/
theorem roundSixteenths_bounds (m : Nat) :
    roundSixteenths m * 2 ^ 146 ≤ 2 * m + 2 ^ 145 ∧ 2 * m + 2 ^ 145 < (roundSixteenths m + 1) * 2 ^ 146 := by
  refine ⟨Nat.div_mul_le_self _ _, ?_⟩
  rw [Nat.mul_comm _ (2 ^ 146)]
  exact Nat.lt_mul_div_succ _ (Nat.two_pow_pos 146)

/-- The sign bit is that of the value and of the integer it is rounded to. -/
theorem f32Scaled_alarmInt_sign (v : Word) :
    (f32Scaled v = f32Mag v ∧ alarmInt v = roundSixteenths (f32Mag v)) ∨
      (f32Scaled v = -(f32Mag v : Int) ∧ alarmInt v = -(roundSixteenths (f32Mag v) : Int)) := by
  by_cases negative : v.msb = true
  · exact .inr ⟨if_pos negative, if_pos negative⟩
  · exact .inl ⟨if_neg negative, if_neg negative⟩

section
variable (v : Word)

theorem alarmInt_nearest : 2 * (alarmInt v * 2 ^ 145 - f32Scaled v).natAbs ≤ 2 ^ 145 := by
  obtain ⟨below, above⟩ := roundSixteenths_bounds (f32Mag v)
  obtain ⟨scaled, rounded⟩ | ⟨scaled, rounded⟩ := f32Scaled_alarmInt_sign v <;> rw [scaled, rounded] <;> omega

theorem alarmInt_tie_larger_magnitude (tie : 2 * (alarmInt v * 2 ^ 145 - f32Scaled v).natAbs = 2 ^ 145) :
    (f32Scaled v).natAbs < (alarmInt v * 2 ^ 145).natAbs := by
  obtain ⟨below, above⟩ := roundSixteenths_bounds (f32Mag v)
  obtain ⟨scaled, rounded⟩ | ⟨scaled, rounded⟩ := f32Scaled_alarmInt_sign v <;>
    rw [scaled, rounded] at tie ⊢ <;> omega

/-- Half a step beyond -32768 and 32767 the tie goes outward, so both ends of the range are excluded. -/
theorem alarmInt_range_iff :
    (-32768 ≤ alarmInt v ∧ alarmInt v ≤ 32767) ↔
      (-65537 * 2 ^ 144 < f32Scaled v ∧ f32Scaled v < 65535 * 2 ^ 144) := by
  obtain ⟨below, above⟩ := roundSixteenths_bounds (f32Mag v)
  obtain ⟨scaled, rounded⟩ | ⟨scaled, rounded⟩ := f32Scaled_alarmInt_sign v <;> rw [scaled, rounded] <;> omega

end

/-! ### `enc16` inside and outside its domain (R164, R165) -/

theorem alarmFits_iff {v : Word} :
    alarmFits v = true ↔ isFinite v = true ∧ -32768 ≤ alarmInt v ∧ alarmInt v ≤ 32767 := by
  simp [alarmFits, and_assoc]

theorem enc16_of_fits {v : Word} (fits : alarmFits v = true) (x : BitVec 16) :
    enc16 v x = BitVec.ofInt 16 (alarmInt v) := if_pos fits

theorem enc16_of_not_fits {v : Word} (outside : ¬ alarmFits v = true) (x : BitVec 16) : enc16 v x = x := if_neg outside

/-- An integer in the range of 16 signed bits is read back from its two's complement pattern. -/
theorem enc16_toInt {v : Word} (fits : alarmFits v = true) (x : BitVec 16) : (enc16 v x).toInt = alarmInt v := by
  obtain ⟨-, low, high⟩ := alarmFits_iff.mp fits
  rw [enc16_of_fits fits]
  exact BitVec.toInt_ofInt_eq_self (by decide) low (Int.lt_add_one_of_le high)

/-! ### The answer to the sample of `CHECK_ALARM` -/

theorem alarmAnswer_of_script {s : State} {e : Bool} {es : List Bool} (script : s.env = e :: es) : alarmAnswer s = e :=
  answerAt_of_script _ script

/-- A low sample is an active alarm (R167). -/
theorem boolData_not (e : Bool) : boolData (!e) = if e then 0 else 1 := by
  cases e <;> rfl

/-! ### The obligations -/

/-- Settles O28: the two equations of the command, with the pattern and the stored byte as numbers. -/
theorem setResResult : Obligations.SetResResult := by
  unfold Obligations.SetResResult
  refine ⟨fun r => rfl, fun s r low high => ⟨0, ?_⟩, fun s r outside => ?_⟩
  · have stored : r.extractLsb' 0 8 = BitVec.ofNat 8 r.toNat := rfl
    rw [exec, execSetRes_of_accepted s ⟨low, high⟩, stored, traceWB_eq_flatMap, resPattern_eq_ofNat s.cfg low]
  · exact execSetRes_of_ignored s (by omega)

/-- Settles O30: the command's equation with its sixteen slots listed; the free value is the state's draw. -/
theorem setAlarmResult : Obligations.SetAlarmResult := by
  unfold Obligations.SetAlarmResult
  refine ⟨fun v => rfl, fun s v => ⟨0, alarmDraw v s, ?_⟩⟩
  rw [exec, execSetAlarm_eq, traceW16_eq_flatMap]

/-- Settles O31: the nearest integer, the tie, the range, the pattern; the two zeros round to 0, which fits. -/
theorem alarmEncodingRoundsToNearest : Obligations.AlarmEncodingRoundsToNearest := by
  unfold Obligations.AlarmEncodingRoundsToNearest
  refine ⟨fun v x finite => ⟨alarmInt_nearest v, alarmInt_tie_larger_magnitude v, alarmInt_range_iff v, fun low high =>
    enc16_toInt (alarmFits_iff.mpr ⟨finite, low, high⟩) x⟩, fun x => ⟨?_, ?_⟩⟩
  · rw [enc16_of_fits (by decide)]
    decide
  · rw [enc16_of_fits (by decide)]
    decide

/-- Settles O32: such an operand does not fit, and the command's equation holds whatever value is drawn. -/
theorem alarmEncodingOutOfDomainIsFree : Obligations.AlarmEncodingOutOfDomainIsFree := by
  unfold Obligations.AlarmEncodingOutOfDomainIsFree
  intro v outside
  have notFits : ¬ alarmFits v = true := by
    rw [alarmFits_iff]
    rintro ⟨finite, low, high⟩
    obtain infinite | below | above := outside
    · exact absurd (finite.symm.trans infinite) (by decide)
    · omega
    · omega
  refine ⟨enc16_of_not_fits notFits, fun s => ⟨_, (List.range 16).map (alarmDraw v s).getLsbD, execSetAlarm_eq v s, rfl,
    by simp, ?_, rfl⟩⟩
  rw [enc16_of_not_fits notFits, traceW16_eq_flatMap]

/-- Settles O33: the command's equation with its trace listed, the scripted answer, and the defaults. -/
theorem checkAlarmResult : Obligations.CheckAlarmResult := by
  unfold Obligations.CheckAlarmResult
  refine ⟨by decide, fun s => ?_, fun s e es => alarmAnswer_of_script, rfl, rfl, rfl, rfl, rfl⟩
  rw [exec, execCheckAlarm_eq, boolData_not]
  rfl

/-- Settles O29: the four patterns, their bits, and the slots of an accepted command. -/
theorem theFourResolutionPatterns : Obligations.TheFourResolutionPatterns := by
  unfold Obligations.TheFourResolutionPatterns
  refine ⟨fun cfg => ?_, fun s r low high => ⟨_, execSetRes_of_accepted s ⟨low, high⟩, ?_⟩⟩
  · simp only [resPattern_eq]
    decide
  · rw [traceWB_eq_flatMap]

/-- Settles O34: each command is one line event and the response. -/
theorem parasiticPowerResult : Obligations.ParasiticPowerResult := by
  unfold Obligations.ParasiticPowerResult
  exact ⟨by decide, by decide, fun s => ⟨rfl, rfl⟩⟩

end Sys2Proof.Machine
end

section
/-! PROOFS. The register commands (spec/44_register_access.md R180 to R185): the fields of STATUS, the bytes of DEVID, the
two sides of WRREG.RES's operand, and that the settings are seen through their own reads only (R182). -/

namespace Sys2Proof.Machine

/-! ### The fields of STATUS (R180) -/

/-- The codes of R27 use three of the four patterns. -/
theorem lmodeBits_ne_three (m : LineMode) : lmodeBits m ≠ 3 := by
  cases m <;> decide

theorem convBits_ne_three (c : ConvState) : convBits c ≠ 3 := by
  cases c <;> decide

section
variable (s : State)

theorem statusWord_lmode : (statusWord s).extractLsb' 0 2 = lmodeBits s.lmode :=
  BitVec.extractLsb'_append_eq_right

theorem statusWord_conv : (statusWord s).extractLsb' 2 2 = convBits s.conv := by
  rw [statusWord, BitVec.extractLsb'_append_eq_of_le (by decide)]
  exact BitVec.extractLsb'_append_eq_right

theorem statusWord_pres : (statusWord s).getLsbD 4 = s.pres := by
  simp only [statusWord, BitVec.getLsbD_append]
  simp

theorem statusWord_zeros : (statusWord s).extractLsb' 5 27 = 0#27 := by
  rw [statusWord, BitVec.extractLsb'_append_eq_of_le (by decide), BitVec.extractLsb'_append_eq_of_le (by decide)]
  exact BitVec.extractLsb'_append_eq_left

end

/-! ### The operand of `WRREG.RES` (R183, R186) -/

/-- A byte as an operand. -/
theorem setWidth_eq_zero_append (x : Byte) : x.setWidth 32 = (0#24 ++ x : BitVec (24 + 8)) :=
  BitVec.setWidth_eq_append (by decide)

/-- Bits 31:8 are zero exactly below 256. -/
theorem high_bits_eq_zero_iff (x : Word) : x.extractLsb' 8 24 = 0 ↔ x.toNat < 256 := by
  have high : (x.extractLsb' 8 24).toNat = x.toNat / 256 := by
    rw [BitVec.extractLsb'_toNat, Nat.shiftRight_eq_div_pow]
    omega
  rw [← BitVec.toNat_inj, high]
  exact Nat.div_eq_zero_iff_lt (by decide)

theorem execWrregRes_of_lt {x : Word} (s : State) (byte : x.toNat < 256) :
    execWrregRes x s = .next (respond .ok 0 (setRes (x.extractLsb' 0 8) s)) :=
  if_pos ((high_bits_eq_zero_iff x).mpr byte)

theorem execWrregRes_of_ge {x : Word} (s : State) (wide : 256 ≤ x.toNat) :
    execWrregRes x s = .next (raiseError .illegal s) :=
  if_neg (mt (high_bits_eq_zero_iff x).mp (Nat.not_lt.mpr wide))

/-! ### The bytes of `DEVID` (R181, R185) -/

theorem wordByte_toNat (x : Word) (i : Nat) : (wordByte x i).toNat = x.toNat / 2 ^ (8 * i) % 256 := by
  rw [wordByte, BitVec.extractLsb'_toNat, Nat.shiftRight_eq_div_pow]

/-- The four bytes of a word as numbers; nothing is above byte 3. -/
theorem wordByte_toNats (x : Word) :
    (wordByte x 0).toNat = x.toNat % 256 ∧ (wordByte x 1).toNat = x.toNat / 256 % 256 ∧
      (wordByte x 2).toNat = x.toNat / 65536 % 256 ∧ (wordByte x 3).toNat = x.toNat / 16777216 := by
  simp only [wordByte_toNat]
  omega

/-- Each half reads as it was written, and the write of the high half leaves the low half. -/
@[simp] theorem devidLo_setDevidLo (x : Word) (s : State) : devidLo (setDevidLo x s) = x := wordOfBytes_wordByte x

@[simp] theorem devidLo_setDevidHi (x : Word) (s : State) : devidLo (setDevidHi x s) = devidLo s := rfl

@[simp] theorem devidHi_setDevidHi (x : Word) (s : State) : devidHi (setDevidHi x s) = x := wordOfBytes_wordByte x

/-- To answer changes no register. -/
@[simp] theorem devidLo_respond (code : RespCode) (d : Word) (s : State) : devidLo (respond code d s) = devidLo s := rfl

@[simp] theorem devidHi_respond (code : RespCode) (d : Word) (s : State) : devidHi (respond code d s) = devidHi s := rfl

@[simp] theorem rspOut_respond (code : RespCode) (d : Word) (s : State) :
    rspOut (respond code d s) = some ⟨code, d⟩ := rfl

/-! ### What the settings are not seen by (R182)

No equation of a command other than the four reads has a setting in it but where it says what that setting becomes, so the
equations of two runs agree but for the settings. -/

section
variable (res : Byte) (thr : Word) (devid : Vector Byte 8)

/-- A state with `RES`, `THR` and `DEVID` replaced. -/
def withSettings (s : State) : State := { s with res := res, thr := thr, devid := devid }

/-- The command answers alike, but for the settings, when only the settings differ. -/
def SettingsUnseen (i : Instr) (s : State) : Prop :=
  ∃ t u, exec i s = .next t ∧ exec i (withSettings res thr devid s) = .next u ∧
    withSettings t.res t.thr t.devid u = t

theorem pollConv_settingsUnseen {s : State} (running : s.conv ≠ .idle) :
    SettingsUnseen res thr devid .pollConv s := by
  cases conv : s.conv with
  | idle => exact absurd conv running
  | complete => exact ⟨_, _, execPollConv_of_complete conv, execPollConv_of_complete conv, rfl⟩
  | converting =>
    refine ⟨_, _, execPollConv_of_converting conv, execPollConv_of_converting conv, ?_⟩
    rw [pollConverting_eq conv, pollConverting_eq (s := withSettings res thr devid s) conv]
    rfl

/-- The change commutes with the command (R148), which keeps `CONV` and writes `PRES` from the presence sample. -/
theorem readTemp_settingsUnseen (s : State) : SettingsUnseen res thr devid .readTemp s := by
  obtain ⟨t, eq, changed⟩ := execReadTemp_withUnread res thr devid s.conv s.pres s
  obtain ⟨sp', shape⟩ := execReadTemp_eq s
  obtain rfl := Host.Outcome.next.inj (eq.symm.trans shape)
  exact ⟨_, _, eq, changed, rfl⟩

theorem setRes_settingsUnseen (r : Word) (s : State) : SettingsUnseen res thr devid (.setRes r) s := by
  by_cases accepted : 9 ≤ r.toNat ∧ r.toNat ≤ 12
  · exact ⟨_, _, execSetRes_of_accepted s accepted, execSetRes_of_accepted _ accepted, rfl⟩
  · exact ⟨_, _, execSetRes_of_ignored s accepted, execSetRes_of_ignored _ accepted, rfl⟩

theorem wrregRes_settingsUnseen (x : Word) (s : State) : SettingsUnseen res thr devid (.wrregRes x) s := by
  obtain byte | wide := Nat.lt_or_ge x.toNat 256
  · exact ⟨_, _, execWrregRes_of_lt s byte, execWrregRes_of_lt _ byte, rfl⟩
  · exact ⟨_, _, execWrregRes_of_ge s wide, execWrregRes_of_ge _ wide, rfl⟩

/-- Of the commands the spec defines in a state, only the four reads of the settings see them. -/
theorem settingsUnseen {i : Instr} {s : State} (defined : Defined i s) (notRes : i ≠ .rdregRes) (notThr : i ≠ .rdregThr)
    (notLo : i ≠ .rdregDevidLo) (notHi : i ≠ .rdregDevidHi) : SettingsUnseen res thr devid i s := by
  cases i with
  | rdregRes => exact absurd rfl notRes
  | rdregThr => exact absurd rfl notThr
  | rdregDevidLo => exact absurd rfl notLo
  | rdregDevidHi => exact absurd rfl notHi
  | beginSession => exact ⟨_, _, execBegin_eq s, execBegin_eq _, rfl⟩
  | startConv => exact ⟨_, _, execStartConv_eq s, execStartConv_eq _, rfl⟩
  | pollConv => exact pollConv_settingsUnseen res thr devid (defined rfl)
  | readTemp => exact readTemp_settingsUnseen res thr devid s
  | setRes r => exact setRes_settingsUnseen res thr devid r s
  | setAlarm v => exact ⟨_, _, execSetAlarm_eq v s, execSetAlarm_eq v _, rfl⟩
  | checkAlarm => exact ⟨_, _, execCheckAlarm_eq s, execCheckAlarm_eq _, rfl⟩
  | wrregRes x => exact wrregRes_settingsUnseen res thr devid x s
  | paraOff | paraOn | rdregStatus | wrregThr | wrregDevidLo | wrregDevidHi => exact ⟨_, _, rfl, rfl, rfl⟩

end

/-! ### The obligations -/

/-- Settles O40: the low half survives the write of the high one, and each half reads as written. -/
theorem devidReadsBack : Obligations.DevidReadsBack := by
  unfold Obligations.DevidReadsBack
  intro s t u lo hi writeLo writeHi
  obtain rfl := Host.Outcome.next.inj writeLo
  obtain rfl := Host.Outcome.next.inj writeHi
  exact ⟨_, _, rfl, by simp, rfl, by simp⟩

/-- Settles O44: `settingsUnseen`, and the fault of a `POLL_CONV` in IDLE, where `CONV` is the same in both states. -/
theorem settingsAreSeenByTheirReadsOnly : Obligations.SettingsAreSeenByTheirReadsOnly := by
  unfold Obligations.SettingsAreSeenByTheirReadsOnly
  intro i s res thr devid notRes notThr notLo notHi
  refine ⟨fun defined => settingsUnseen res thr devid defined notRes notThr notLo notHi, fun undefined => ?_⟩
  obtain ⟨rfl, running⟩ := Classical.not_imp.mp undefined
  have idle := not_not.mp running
  exact ⟨execPollConv_of_idle idle, execPollConv_of_idle idle⟩

/-- Settles O35: `statusWord`, field by field. -/
theorem rdregStatusResult : Obligations.RdregStatusResult := by
  unfold Obligations.RdregStatusResult
  refine ⟨by decide, fun s => ⟨statusWord s, rfl, statusWord_lmode s, statusWord_conv s, statusWord_pres s,
    statusWord_zeros s, ?_, ?_⟩, by decide⟩
  · rw [statusWord_lmode]
    exact lmodeBits_ne_three s.lmode
  · rw [statusWord_conv]
    exact convBits_ne_three s.conv

/-- Settles O36: each read is its register; zero-extension puts zeros above `RES`. -/
theorem rdregResult : Obligations.RdregResult := by
  unfold Obligations.RdregResult
  refine ⟨by decide, by decide, by decide, by decide, fun s => ⟨?_, rfl, rfl, rfl⟩, rfl, rfl⟩
  rw [← setWidth_eq_zero_append]
  rfl

/-- Settles O37: the operand of `WRREG.RES` is 24 zeros before the byte, and `THR` takes the operand as it is. -/
theorem wrregResAndThrResult : Obligations.WrregResAndThrResult := by
  unfold Obligations.WrregResAndThrResult
  refine ⟨fun x => ?_, fun x => rfl, fun s x => ?_, fun s x => rfl, fun s t x write => ?_⟩
  · have zeros : (0x21#8 ++ 0#24 : Word) = 0x21000000#32 := by decide
    rw [setWidth_eq_zero_append, ← zeros, BitVec.append_assoc]
    rfl
  · have high : (0#24 ++ x : Word).extractLsb' 8 24 = 0 := BitVec.extractLsb'_append_eq_left
    have low : (0#24 ++ x : Word).extractLsb' 0 8 = x := BitVec.extractLsb'_append_eq_right
    rw [setWidth_eq_zero_append, exec, execWrregRes_of_lt s ((high_bits_eq_zero_iff _).mp high), low]
    rfl
  · obtain rfl := Host.Outcome.next.inj write
    exact ⟨_, rfl, rfl⟩

/-- Settles O38: the two sides of the operand. -/
theorem wrregResOverEveryOperand : Obligations.WrregResOverEveryOperand := by
  unfold Obligations.WrregResOverEveryOperand
  exact ⟨fun s x => execWrregRes_of_lt s, fun s x => execWrregRes_of_ge s⟩

/-- Settles O39: the written half is the operand's bytes, the other half is the state's. -/
theorem wrregDevidResult : Obligations.WrregDevidResult := by
  unfold Obligations.WrregDevidResult
  refine ⟨fun x => rfl, fun x => rfl, fun s x => ⟨(setDevidLo x s).devid, rfl, ?_⟩,
    fun s x => ⟨(setDevidHi x s).devid, rfl, ?_⟩⟩ <;>
  · obtain ⟨b0, b1, b2, b3⟩ := wordByte_toNats x
    exact ⟨b0, b1, b2, b3, rfl, rfl, rfl, rfl⟩

end Sys2Proof.Machine
end

section
/-! PROOFS. SAVE and LOAD (spec/45_host_collaborators.md R192 to R197): the thirteen bytes, the end of the store, and that
one reads what the other wrote. -/

namespace Sys2Proof.Machine

/-! ### A pseudo-instruction of a ready block -/

section
variable {s : State} {rest : List HostInput}

theorem runPseudo_of_ready {a : HostInput} {f : State → Host.Outcome State Fault Refusal}
    (ready : cmdReady s = true) : runPseudo a f s = f s := by
  rw [runPseudo, takeResponse_of_ready ready, if_pos ready]

theorem step_of_save (hhost : s.host = .save :: rest) (ready : cmdReady s = true) :
    step s = save { s with host := rest } :=
  (step_of_host hhost).trans (runPseudo_of_ready ready)

theorem step_of_load (hhost : s.host = .load :: rest) (ready : cmdReady s = true) :
    step s = load { s with host := rest } :=
  (step_of_host hhost).trans (runPseudo_of_ready ready)

theorem step_of_readF (hhost : s.host = .readF :: rest) (ready : cmdReady s = true) :
    step s = readF { s with host := rest } :=
  (step_of_host hhost).trans (runPseudo_of_ready ready)

end

/-! ### The end of the store (R196) -/

theorem storeHasRoom_iff {s : State} : storeHasRoom s = true ↔ s.cur + 13 ≤ s.cfg.eeSize := by
  simp [storeHasRoom]

theorem save_of_no_room {s : State} (full : s.cfg.eeSize < s.cur + 13) : save s = .refused .storeExhausted :=
  if_neg (mt storeHasRoom_iff.mp (Nat.not_le.mpr full))

theorem load_of_no_room {s : State} (full : s.cfg.eeSize < s.cur + 13) : load s = .refused .storeExhausted :=
  if_neg (mt storeHasRoom_iff.mp (Nat.not_le.mpr full))

/-! ### The thirteen bytes of SAVE (R193, R194) -/

/-- The bytes of one SAVE, lowest address first: `RES`, `THR` low byte first, `DEVID`. -/
def settingsBytes (s : State) : List Byte := [s.res] ++ wordBytes s.thr ++ s.devid.toList

theorem settingsBytes_length (s : State) : (settingsBytes s).length = 13 := by
  simp [settingsBytes, wordBytes]

/-- The two halves of `DEVID`, byte by byte, are `DEVID`. -/
theorem wordBytes_devid (s : State) : wordBytes (devidLo s) ++ wordBytes (devidHi s) = s.devid.toList := by
  have eight : s.devid.toList =
      [s.devid[0], s.devid[1], s.devid[2], s.devid[3], s.devid[4], s.devid[5], s.devid[6], s.devid[7]] := by
    apply List.ext_getElem
    · simp
    · intro i _ _
      match i with
      | 0 | 1 | 2 | 3 | 4 | 5 | 6 | 7 => simp
  simp [eight, wordBytes, devidLo, devidHi, wordByte_wordOfBytes]

theorem memWrite_append (m : Memory) (a : Nat) (bs cs : List Byte) :
    memWrite m a (bs ++ cs) = memWrite (memWrite m a bs) (a + bs.length) cs := by
  induction bs generalizing m a with
  | nil => rfl
  | cons b bs ih => rw [List.cons_append, memWrite, ih, memWrite, List.length_cons, Nat.add_right_comm, Nat.add_assoc]

/-- The three fields SAVE writes stand one after the other. -/
theorem memWrite_settingsBytes (m : Memory) (a : Nat) (s : State) :
    memWrite (memWrite (memWrite m a [s.res]) (a + 1) (wordBytes s.thr)) (a + 5)
      (wordBytes (devidLo s) ++ wordBytes (devidHi s)) = memWrite m a (settingsBytes s) := by
  rw [wordBytes_devid, settingsBytes, memWrite_append, memWrite_append]
  rfl

/-- What is read at an offset inside the bytes written. -/
theorem storeRead_memWrite_add (m : Memory) (a : Nat) {bs : List Byte} {i : Nat} (inside : i < bs.length) :
    storeRead (memWrite m a bs) (a + i) = bs[i] := by
  rw [storeRead_memWrite, dif_pos ⟨Nat.le_add_right a i, by simpa using inside⟩]
  simp

theorem storeRead_memWrite_of_outside (m : Memory) {a k : Nat} {bs : List Byte}
    (outside : k < a ∨ a + bs.length ≤ k) : storeRead (memWrite m a bs) k = storeRead m k := by
  rw [storeRead_memWrite, dif_neg (by omega)]

section
variable (m : Memory) (a : Nat) (s : State)

theorem storeRead_settingsBytes_res : storeRead (memWrite m a (settingsBytes s)) a = s.res :=
  storeRead_memWrite_add m a (bs := settingsBytes s) (i := 0) (by simp [settingsBytes_length])

theorem storeRead_settingsBytes_thr {i : Nat} (inside : i < 4) :
    storeRead (memWrite m a (settingsBytes s)) (a + 1 + i) = wordByte s.thr i := by
  rw [Nat.add_assoc, storeRead_memWrite_add m a (by rw [settingsBytes_length]; omega)]
  match i with
  | 0 | 1 | 2 | 3 => rfl

theorem storeRead_settingsBytes_devid (k : Fin 8) :
    storeRead (memWrite m a (settingsBytes s)) (a + 5 + k) = s.devid[k] := by
  rw [Nat.add_assoc, storeRead_memWrite_add m a (by rw [settingsBytes_length]; omega)]
  simp [settingsBytes, wordBytes, Nat.add_comm 5]

end

/-! ### The obligations on the store -/

/-- Settles O54: neither has room. -/
theorem storeExhaustionIsRefused : Obligations.StoreExhaustionIsRefused := by
  unfold Obligations.StoreExhaustionIsRefused
  rintro s a rest (rfl | rfl) hhost ready full
  · rw [step_of_save hhost ready]
    exact save_of_no_room full
  · rw [step_of_load hhost ready]
    exact load_of_no_room full

/-- Settles O51: the store is written with `settingsBytes` and read back at each offset. -/
theorem saveResult : Obligations.SaveResult := by
  unfold Obligations.SaveResult
  intro s rest hhost ready room
  have saved := step_of_save hhost ready
  rw [save_eq (s := { s with host := rest }) ready room, memWrite_settingsBytes] at saved
  refine ⟨memWrite s.store s.cur (settingsBytes s), _, saved, rfl, fun k outside => ?_,
    storeRead_settingsBytes_res s.store s.cur s, ?_, storeRead_settingsBytes_devid s.store s.cur s⟩
  · exact storeRead_memWrite_of_outside _ (by rwa [settingsBytes_length])
  · have byte {i : Nat} := storeRead_settingsBytes_thr s.store s.cur s (i := i)
    refine Eq.trans ?_ (wordOfBytes_wordByte s.thr)
    rw [← byte (i := 0) (by decide), ← byte (i := 1) (by decide), ← byte (i := 2) (by decide),
      ← byte (i := 3) (by decide)]
    rfl

/-- Settles O52: LOAD's equation; the eight bytes are listed in it. -/
theorem loadResult : Obligations.LoadResult := by
  unfold Obligations.LoadResult
  intro s rest hhost ready room
  refine ⟨_, ?_, (step_of_load hhost ready).trans (load_eq ready room)⟩
  intro k
  match k with
  | 0 | 1 | 2 | 3 | 4 | 5 | 6 | 7 => rfl

/-- Settles O53: what LOAD finds at the cursor (O52) is what SAVE left there (O51); that SAVE answered means there was
room (O54). -/
theorem saveThenLoadReproducesTheSettings : Obligations.SaveThenLoadReproducesTheSettings := by
  unfold Obligations.SaveThenLoadReproducesTheSettings
  intro s t u rest rest' hsave ready saved hload ready' store cur size
  have room : s.cur + 13 ≤ s.cfg.eeSize := by
    by_contra full
    have refused := storeExhaustionIsRefused s .save rest (.inl rfl) hsave ready (Nat.not_le.mp full)
    cases saved.symm.trans refused
  obtain ⟨m, rs, eq, -, -, res, thr, devid⟩ := saveResult s rest hsave ready room
  obtain rfl := Host.Outcome.next.inj (eq.symm.trans saved)
  obtain ⟨d, bytes, loaded⟩ := loadResult u rest' hload ready' (by rwa [cur, size])
  simp only [store, cur] at bytes loaded
  refine ⟨_, loaded, res, thr, ?_, rfl⟩
  apply Vector.ext
  intro k hk
  exact (bytes ⟨k, hk⟩).trans (devid ⟨k, hk⟩)

end Sys2Proof.Machine
end

section
/-! PROOFS. READ_F (spec/45_host_collaborators.md R190): one READ_TEMP, and the host's arithmetic on its data. -/

namespace Sys2Proof.Machine

/-! ### What binary32 holds -/

theorem isFinite_iff {v : Word} : isFinite v = true ↔ f32Exp v ≠ 255 := by
  simp [isFinite]

theorem isNaN_of_isFinite {v : Word} (finite : isFinite v = true) : isNaN v = false := by
  simp [isNaN, isFinite_iff.mp finite]

theorem f32Exp_le_254 {v : Word} (finite : isFinite v = true) : f32Exp v ≤ 254 := by
  have field : f32Exp v < 2 ^ 8 := (v.extractLsb' 23 8).isLt
  have := isFinite_iff.mp finite
  omega

theorem f32Scaled_natAbs (v : Word) : (f32Scaled v).natAbs = f32Mag v := by
  unfold f32Scaled
  split <;> simp

/-- Binary32 has room for every magnitude of 24 bits. -/
theorem f32Drop_of_lt {m : Nat} (lt : m < 2 ^ 24) : f32Drop m = 0 := by
  by_cases zero : m = 0
  · subst zero
    rfl
  · exact Nat.sub_eq_zero_of_le (Nat.lt_succ_iff.mp ((Nat.log2_lt zero).mpr lt))

/-- A magnitude of 24 bits, shifted left, has its low bits as zeros: they are what `f32Drop` drops. -/
theorem f32Drop_shifted {f e : Nat} (frac : f < 2 ^ 23) : f32Drop ((2 ^ 23 + f) * 2 ^ e) = e := by
  have log : ((2 ^ 23 + f) * 2 ^ e).log2 = 23 + e := by
    rw [Nat.log2_eq_iff (by positivity), Nat.pow_add, Nat.add_right_comm, Nat.pow_add]
    constructor
    · exact Nat.mul_le_mul_right _ (by omega)
    · exact Nat.mul_lt_mul_of_pos_right (by omega) (by positivity)
  rw [f32Drop, log, Nat.add_sub_cancel_left]

/-- Binary32 holds the value of each of its finite patterns. -/
theorem f32Holds_f32Scaled {v : Word} (finite : isFinite v = true) : f32Holds (f32Scaled v) = true := by
  have frac : f32Frac v < 2 ^ 23 := (v.extractLsb' 0 23).isLt
  have exp := f32Exp_le_254 finite
  rw [f32Holds, f32Scaled_natAbs]
  by_cases subnormal : f32Exp v = 0
  · rw [f32Mag, if_pos subnormal, f32Drop_of_lt (by omega)]
    simp [Nat.mod_one]
  · rw [f32Mag, if_neg subnormal, f32Drop_shifted frac, Nat.mul_mod_left]
    simp
    omega

/-! ### The arithmetic -/

/-- Where a finite pattern `f` is the exact Fahrenheit value of `c`, `fahrenheitScaled` computes it and binary32
holds it. -/
theorem fahrenheitExact_of_eq {c f : Word} (hc : isFinite c = true) (hf : isFinite f = true)
    (eq : 5 * f32Scaled f = 9 * f32Scaled c + 160 * 2 ^ 149) :
    fahrenheitExact c = true ∧ fahrenheitScaled (f32Scaled c) = f32Scaled f := by
  have fifth : f32Scaled c % 5 = 0 := by omega
  have scaled : fahrenheitScaled (f32Scaled c) = f32Scaled f := by
    unfold fahrenheitScaled
    omega
  refine ⟨?_, scaled⟩
  rw [fahrenheitExact, scaled, hc, fifth, f32Holds_f32Scaled hf]
  rfl

/-- An exact result is the value, as a finite pattern. -/
theorem c2f_of_exact {c : Word} (exact : fahrenheitExact c = true) :
    isFinite (c2f c) = true ∧ f32Scaled (c2f c) = fahrenheitScaled (f32Scaled c) := by
  have holds : f32Holds (fahrenheitScaled (f32Scaled c)) = true := (Bool.and_eq_true_iff.mp exact).2
  rw [c2f, if_pos exact]
  exact f32_roundtrip _ holds

theorem isNaN_c2f {c : Word} (finite : isFinite c = true) : isNaN (c2f c) = false := by
  by_cases exact : fahrenheitExact c = true
  · exact isNaN_of_isFinite (c2f_of_exact exact).1
  · rw [c2f, if_neg exact, if_pos finite]
    exact isNaN_notNaN _

theorem readFData_of_isFinite {c : Word} (finite : isFinite c = true) : readFData c = c2f c :=
  if_neg (by simp [isNaN_of_isFinite finite])

/-! ### The transaction -/

theorem lastData_of_received {s : State} {rs : List Response} {r : Response} (received : s.received = rs ++ [r]) :
    lastData s = r.data := by
  rw [lastData, received, List.getLast?_concat]

/-- READ_F is the `READ_TEMP` it sends, the response taken, and the arithmetic on its data. -/
theorem readF_of_exec {s t : State} {r : Response}
    (ht : exec .readTemp { s with opr := 0x04, argr := 0, seq := .running } = .next t) (out : t.seq = .responding r) :
    readF s =
      .next { t with seq := .idle, received := t.received ++ [r], fahr := some (readFData r.data) } := by
  obtain ⟨op, arg⟩ := Laws.fields_encode .readTemp
  have ran := transact_of_exec (w := encode .readTemp) (i := .readTemp) (s := s) (by decide)
    (by rw [op, arg]; exact ht) out
  rw [readF, ran, andThen, lastData_of_received rfl]

/-- Settles O55: the transaction, then the arithmetic for a not-a-number, a finite value, and an exact result. -/
theorem readFahrenheit : Obligations.ReadFahrenheit := by
  unfold Obligations.ReadFahrenheit
  refine ⟨fun s rest hhost ready => ?_, fun c nan => if_pos nan, fun c finite => ?_, fun c f hc hf eq => ?_⟩
  · obtain ⟨t, r, ran, out, -⟩ :=
      answersAllowed (i := .readTemp) (s := { s with host := rest, opr := 0x04, argr := 0, seq := .running }) nofun
    have effect := effect_of_exec_eq_next ran
    have received : t.received = s.received := effect.received
    refine ⟨t, r, ran, by rw [rspOut, out], ?_⟩
    rw [step_of_readF hhost ready, readF_of_exec (s := { s with host := rest }) ran out, received]
  · rw [readFData_of_isFinite finite]
    exact isNaN_c2f finite
  · obtain ⟨exact, scaled⟩ := fahrenheitExact_of_eq hc hf eq
    rw [readFData_of_isFinite hc, ← scaled]
    exact c2f_of_exact exact

end Sys2Proof.Machine
end

section
/-! PROOFS. What one input of the host does to the parameters, the cursor and the store (spec/00_scope.md R7,
spec/45_host_collaborators.md R191), and how a step ends (R196, spec/42_session.md R145, spec/93_implementation_defined.md
U5). -/

namespace Sys2Proof.Machine

/-! ### Operations that leave the host's memory alone -/

/-- The parameters, the store and the cursor are as before. -/
structure HostMemoryKept (s t : State) : Prop where
  cfg : t.cfg = s.cfg := by rfl
  store : t.store = s.store := by rfl
  cur : t.cur = s.cur := by rfl

section
variable {s t : State}

theorem HostMemoryKept.trans {u : State} (first : HostMemoryKept s t) (second : HostMemoryKept t u) :
    HostMemoryKept s u :=
  ⟨second.cfg.trans first.cfg, second.store.trans first.store, second.cur.trans first.cur⟩

theorem HostMemoryKept.takeResponse (s : State) : HostMemoryKept s (takeResponse s) := by
  unfold Machine.takeResponse
  split <;> exact {}

theorem HostMemoryKept.setRst (high : Bool) (s : State) : HostMemoryKept s (setRst high s) := by
  unfold Machine.setRst
  split
  · exact {}
  · split <;> exact {}

theorem HostMemoryKept.runWord {w : CmdWord} (h : runWord w s = .next t) : HostMemoryKept s t :=
  have answers := answers_of_runWord_eq_next h
  ⟨answers.cfg, answers.store, answers.cur⟩

theorem HostMemoryKept.presentWord {w : CmdWord} (h : presentWord w s = .next t) : HostMemoryKept s t := by
  unfold Machine.presentWord at h
  split at h
  · exact .runWord h
  · cases h; exact {}

theorem HostMemoryKept.cutState (kept : HostMemoryKept s t) (events micros : Nat) :
    HostMemoryKept s (cutState s t events micros) := by
  unfold Machine.cutState
  dsimp only
  split
  · exact kept
  · exact {}

theorem HostMemoryKept.presentCut {w : CmdWord} {events micros : Nat} (h : presentCut w events micros s = .next t) :
    HostMemoryKept s t := by
  unfold Machine.presentCut at h
  split at h
  · obtain ⟨u, run, eq⟩ := andThen_eq_next h
    cases eq
    obtain ⟨cfg, store, cur⟩ := HostMemoryKept.cutState (s := accept w s) (.runWord run) events micros
    exact ⟨cfg, store, cur⟩
  · cases h; exact .setRst false s

theorem HostMemoryKept.readF (h : readF s = .next t) : HostMemoryKept s t := by
  obtain ⟨v, transacted, eq⟩ := andThen_eq_next h
  obtain ⟨u, run, taken⟩ := andThen_eq_next transacted
  cases taken
  cases eq
  obtain ⟨cfg, store, cur⟩ := (HostMemoryKept.runWord run).trans (.takeResponse u)
  exact ⟨cfg, store, cur⟩

end

/-! ### What an input may do to the host's memory -/

/-- Only SAVE changes the store, only SAVE and LOAD move the cursor, by 13, and nothing changes the parameters. -/
structure HostMemoryEffect (a : HostInput) (s t : State) : Prop where
  cfg : t.cfg = s.cfg
  store : t.store ≠ s.store → a = .save
  moved : t.cur ≠ s.cur → a = .save ∨ a = .load
  cur : t.cur = s.cur ∨ t.cur = s.cur + 13

section
variable {a : HostInput} {s t : State}

theorem HostMemoryKept.effect (kept : HostMemoryKept s t) : HostMemoryEffect a s t :=
  ⟨kept.cfg, fun changed => absurd kept.store changed, fun changed => absurd kept.cur changed, .inl kept.cur⟩

/-- What was kept before an input runs may be left out of its effect. -/
theorem HostMemoryEffect.of_kept {u : State} (kept : HostMemoryKept s t) (effect : HostMemoryEffect a t u) :
    HostMemoryEffect a s u := by
  obtain ⟨cfg, store, moved, cur⟩ := effect
  rw [kept.cfg] at cfg
  rw [kept.store] at store
  rw [kept.cur] at moved cur
  exact ⟨cfg, store, moved, cur⟩

theorem HostMemoryEffect.save (ready : cmdReady s = true) (h : save s = .next t) : HostMemoryEffect .save s t := by
  obtain full | room := Nat.lt_or_ge s.cfg.eeSize (s.cur + 13)
  · cases (save_of_no_room full).symm.trans h
  · cases (save_eq ready room).symm.trans h
    exact ⟨rfl, fun _ => rfl, fun _ => .inl rfl, .inr rfl⟩

theorem HostMemoryEffect.load (ready : cmdReady s = true) (h : load s = .next t) : HostMemoryEffect .load s t := by
  obtain full | room := Nat.lt_or_ge s.cfg.eeSize (s.cur + 13)
  · cases (load_of_no_room full).symm.trans h
  · cases (load_eq ready room).symm.trans h
    exact ⟨rfl, fun changed => absurd rfl changed, fun _ => .inr rfl, .inr rfl⟩

/-- A pseudo-instruction takes the response that is out, or waits; neither touches the host's memory. -/
theorem HostMemoryEffect.runPseudo {f : State → Host.Outcome State Fault Refusal}
    (effect : ∀ {u v : State}, cmdReady u = true → f u = .next v → HostMemoryEffect a u v)
    (h : runPseudo a f s = .next t) : HostMemoryEffect a s t := by
  unfold Machine.runPseudo at h
  split at h
  · next ready => exact .of_kept (.takeResponse s) (effect ready h)
  · cases h; exact HostMemoryKept.effect {}

theorem HostMemoryEffect.runInput (h : runInput a s = .next t) : HostMemoryEffect a s t := by
  cases a with
  | present w => exact (HostMemoryKept.presentWord h).effect
  | presentThenReset w events micros => exact (HostMemoryKept.presentCut h).effect
  | presentThenClockStop w =>
    unfold Machine.runInput at h
    dsimp only at h
    split at h
    · cases h
    · exact (HostMemoryKept.presentWord h).effect
  | take => cases h; exact (HostMemoryKept.takeResponse s).effect
  | rst high => cases h; exact (HostMemoryKept.setRst high s).effect
  | save => exact .runPseudo .save h
  | load => exact .runPseudo .load h
  | readF => exact .runPseudo (fun _ ran => (HostMemoryKept.readF ran).effect) h

end

/-- Settles O58: a step is the host's next input, or nothing when the list is empty. -/
theorem onlySaveAndLoadMoveTheCursor : Obligations.OnlySaveAndLoadMoveTheCursor := by
  unfold Obligations.OnlySaveAndLoadMoveTheCursor
  intro s t h
  cases hhost : s.host with
  | nil =>
    rw [step, hostStep, hhost] at h
    cases h
    simp
  | cons a rest =>
    rw [step_of_host hhost] at h
    obtain ⟨cfg, store, moved, cur⟩ := HostMemoryEffect.runInput h
    refine ⟨cfg, fun changed => ⟨rest, by rw [store changed]⟩, fun changed => ?_, cur⟩
    exact (moved changed).imp (fun eq => ⟨rest, by rw [eq]⟩) (fun eq => ⟨rest, by rw [eq]⟩)

/-! ### How an input ends -/

/-- The outcomes of an input in a state, each stop with what causes it. -/
inductive Ending (a : HostInput) (s : State) : Host.Outcome State Fault Refusal → Prop
  | next (t : State) : Ending a s (.next t)
  | storeExhausted (pseudo : a = .save ∨ a = .load) (full : s.cfg.eeSize < s.cur + 13) :
      Ending a s (.refused .storeExhausted)
  | undefSeq (idle : s.conv = .idle) (ready : cmdReady s = true)
      (poll : a = .present 0x0300000000 ∨ ∃ events micros, a = .presentThenReset 0x0300000000 events micros) :
      Ending a s (.fault .undefSeq)
  | clockStopped (ready : cmdReady s = true) (w : CmdWord) (stop : a = .presentThenClockStop w) :
      Ending a s (.fault .clockStopped)

/-- The word of `POLL_CONV` in IDLE is the only one that does not answer (spec/42_session.md R145). -/
theorem runWord_next_or_undefSeq (w : CmdWord) (s : State) :
    (∃ t, runWord w s = .next t) ∨ (runWord w s = .fault .undefSeq ∧ s.conv = .idle ∧ w = 0x0300000000) := by
  cases decoded : decode w with
  | error e => exact .inl ⟨_, runWord_of_error s decoded⟩
  | ok i =>
    rw [runWord_of_ok s decoded]
    by_cases defined : Defined i (accept w s)
    · obtain ⟨t, ran, -⟩ := exec_effect defined
      exact .inl ⟨t, ran⟩
    · obtain ⟨rfl, running⟩ := Classical.not_imp.mp defined
      have idle : s.conv = .idle := not_not.mp running
      exact .inr ⟨execPollConv_of_idle idle, idle, (encodeOfDecode w .pollConv decoded).2.symm⟩

section
variable {a : HostInput} (s : State)

theorem presentWord_ending (w : CmdWord) : Ending (.present w) s (presentWord w s) := by
  unfold presentWord
  split
  · next ready =>
    obtain ⟨t, ran⟩ | ⟨faulted, idle, rfl⟩ := runWord_next_or_undefSeq w s
    · rw [ran]
      exact .next t
    · rw [faulted]
      exact .undefSeq idle ready (.inl rfl)
  · exact .next s

theorem presentCut_ending (w : CmdWord) (events micros : Nat) :
    Ending (.presentThenReset w events micros) s (presentCut w events micros s) := by
  unfold presentCut
  split
  · next ready =>
    obtain ⟨t, ran⟩ | ⟨faulted, idle, rfl⟩ := runWord_next_or_undefSeq w s
    · rw [ran]
      exact .next _
    · rw [faulted]
      exact .undefSeq idle ready (.inr ⟨events, micros, rfl⟩)
  · exact .next _

theorem presentThenClockStop_ending (w : CmdWord) :
    Ending (.presentThenClockStop w) s (runInput (.presentThenClockStop w) s) := by
  unfold runInput
  dsimp only
  split
  · next ready => exact .clockStopped ready w rfl
  · next notReady =>
    rw [presentWord, if_neg notReady]
    exact .next s

/-- A pseudo-instruction that does not wait runs with the parameters and the cursor of the state it was given in. -/
theorem runPseudo_ending {f : State → Host.Outcome State Fault Refusal}
    (ending : ∀ u : State, cmdReady u = true → u.cfg = s.cfg → u.cur = s.cur → Ending a s (f u)) :
    Ending a s (runPseudo a f s) := by
  obtain ⟨cfg, -, cur⟩ := HostMemoryKept.takeResponse s
  unfold runPseudo
  split
  · next ready => exact ending _ ready cfg cur
  · exact .next _

theorem save_ending : Ending .save s (runPseudo .save save s) := by
  refine runPseudo_ending s fun u ready cfg cur => ?_
  obtain full | room := Nat.lt_or_ge u.cfg.eeSize (u.cur + 13)
  · rw [save_of_no_room full]
    exact .storeExhausted (.inl rfl) (by rwa [cfg, cur] at full)
  · rw [save_eq ready room]
    exact .next _

theorem load_ending : Ending .load s (runPseudo .load load s) := by
  refine runPseudo_ending s fun u ready cfg cur => ?_
  obtain full | room := Nat.lt_or_ge u.cfg.eeSize (u.cur + 13)
  · rw [load_of_no_room full]
    exact .storeExhausted (.inr rfl) (by rwa [cfg, cur] at full)
  · rw [load_eq ready room]
    exact .next _

theorem readF_ending : Ending .readF s (runPseudo .readF readF s) := by
  refine runPseudo_ending s fun u _ _ _ => ?_
  obtain ⟨t, r, ran, out, -⟩ :=
    answersAllowed (i := .readTemp) (s := { u with opr := 0x04, argr := 0, seq := .running }) nofun
  rw [readF_of_exec ran out]
  exact .next _

theorem runInput_ending (a : HostInput) : Ending a s (runInput a s) := by
  cases a with
  | present w => exact presentWord_ending s w
  | presentThenReset w events micros => exact presentCut_ending s w events micros
  | presentThenClockStop w => exact presentThenClockStop_ending s w
  | take | rst => exact .next _
  | save => exact save_ending s
  | load => exact load_ending s
  | readF => exact readF_ending s

end

/-- Settles O59: an empty list of inputs answers, and of an input every ending is known. -/
theorem stepsThatStop : Obligations.StepsThatStop := by
  unfold Obligations.StepsThatStop
  intro s
  cases hhost : s.host with
  | nil => exact .inl ⟨s, by rw [step, hostStep, hhost]⟩
  | cons a rest =>
    have ending := runInput_ending { s with host := rest } a
    rw [step_of_host hhost]
    generalize runInput a { s with host := rest } = o at ending
    cases ending with
    | next t => exact .inl ⟨t, rfl⟩
    | storeExhausted pseudo full =>
      exact .inr (.inl ⟨rfl, pseudo.imp (fun eq => ⟨rest, by rw [eq]⟩) (fun eq => ⟨rest, by rw [eq]⟩), full⟩)
    | undefSeq idle ready poll =>
      refine .inr (.inr (.inl ⟨rfl, idle, ready, rest, ?_⟩))
      exact poll.imp (fun eq => by rw [eq]) (fun ⟨events, micros, eq⟩ => ⟨events, micros, by rw [eq]⟩)
    | clockStopped ready w stop => exact .inr (.inr (.inr ⟨rfl, ready, w, rest, by rw [stop]⟩))

end Sys2Proof.Machine
end

section
/-! PROOFS. What every command does to the line (spec/70_reset_and_hazards.md R228, R238): the mode it leaves and the time it
takes, in one case analysis of the commands. -/

namespace Sys2Proof.Machine

/-! ### Durations of whole transmissions -/

theorem duration_traceWB (cfg : Config) (v : Byte) (pulseFits : cfg.tLow ≤ cfg.tSlot) :
    duration (traceWB cfg v) = 8 * (cfg.tSlot + cfg.tRec) :=
  duration_traceSlots cfg v 8 0 pulseFits

theorem duration_traceW16 (cfg : Config) (v : BitVec 16) (pulseFits : cfg.tLow ≤ cfg.tSlot) :
    duration (traceW16 cfg v) = 16 * (cfg.tSlot + cfg.tRec) :=
  duration_traceSlots cfg v 16 0 pulseFits

@[simp] theorem duration_traceRBs_toList (cfg : Config) (v : Vector Byte 9) :
    duration (traceRBs cfg v.toList) = 72 * (cfg.tLow + cfg.tRds + cfg.tRdrem) := by
  rw [duration_traceRBs, v.length_toList, ← Nat.mul_assoc]

/-! ### Commands -/

/-- Between `s` and `t` the command has left the line mode of R228 and added the line time of R238 to the trace. The defaults
are a command that leaves the line alone. -/
structure UsesLine (i : Instr) (s t : State) : Prop where
  lmode : t.lmode = modeAfter i (presenceAnswer s) s.lmode := by rfl
  time : s.cfg.tLow ≤ s.cfg.tSlot → duration t.trace = duration s.trace + lineTime s.cfg i := by exact fun _ => rfl

/-- The sample of a running poll takes no time and leaves the mode as it is (spec/40_bit_signaling.md R103). -/
theorem execPollConv_usesLine {s t : State} (h : execPollConv s = .next t) : UsesLine .pollConv s t := by
  cases conv : s.conv with
  | idle => cases (execPollConv_of_idle conv).symm.trans h
  | complete =>
    cases (execPollConv_of_complete conv).symm.trans h
    exact {}
  | converting =>
    cases (execPollConv_of_converting conv).symm.trans h
    rw [pollConverting_eq conv]
    exact { time := fun _ => duration_append .. }

theorem execSetRes_usesLine {r : Word} {s t : State} (h : execSetRes r s = .next t) : UsesLine (.setRes r) s t := by
  by_cases accepted : 9 ≤ r.toNat ∧ r.toNat ≤ 12
  · cases (execSetRes_of_accepted s accepted).symm.trans h
    exact
      { lmode := (if_pos accepted).symm
        time := fun pulseFits => by simp [duration_traceWB _ _ pulseFits, lineTime, accepted] }
  · cases (execSetRes_of_ignored s accepted).symm.trans h
    exact { lmode := (if_neg accepted).symm, time := fun _ => by simp [lineTime, accepted] }

theorem execWrregRes_usesLine {x : Word} {s t : State} (h : execWrregRes x s = .next t) :
    UsesLine (.wrregRes x) s t := by
  by_cases byte : x.extractLsb' 8 24 = 0
  · cases (if_pos byte).symm.trans h
    exact {}
  · cases (if_neg byte).symm.trans h
    exact {}

/-- Every command uses the line as the tables of R228 and R238 say. -/
theorem usesLine_of_exec_eq_next {i : Instr} {s t : State} (h : exec i s = .next t) : UsesLine i s t := by
  cases i with
  | beginSession =>
    cases (execBegin_eq s).symm.trans h
    exact { time := fun _ => by simp [lineTime] }
  | startConv =>
    cases (execStartConv_eq s).symm.trans h
    exact { time := fun pulseFits => by simp [duration_traceWB _ _ pulseFits, lineTime] }
  | pollConv => exact execPollConv_usesLine h
  | readTemp =>
    obtain ⟨sp', eq⟩ := execReadTemp_eq s
    cases eq.symm.trans h
    exact { time := fun pulseFits => by simp [duration_traceWB _ _ pulseFits, lineTime, Nat.add_assoc] }
  | setRes r => exact execSetRes_usesLine h
  | setAlarm v =>
    cases (execSetAlarm_eq v s).symm.trans h
    exact { time := fun pulseFits => by simp [duration_traceW16 _ _ pulseFits, lineTime] }
  | checkAlarm =>
    cases (execCheckAlarm_eq s).symm.trans h
    exact { time := fun _ => by simp [duration, traceAlarmOpen, lineTime, Nat.add_assoc] }
  | paraOff | paraOn =>
    cases h
    exact { time := fun _ => duration_append .. }
  | wrregRes x => exact execWrregRes_usesLine h
  | rdregStatus | rdregRes | rdregThr | rdregDevidLo | rdregDevidHi | wrregThr | wrregDevidLo | wrregDevidHi =>
    cases h
    exact {}

/-! ### The obligations -/

/-- Settles O41: the table is `usesLine_of_exec_eq_next`; neither error response touches the line, and reset releases it. -/
theorem endModes : Obligations.EndModes := by
  unfold Obligations.EndModes
  refine ⟨fun i s defined => ?_, fun s w e decoded => ⟨_, runWord_of_error s decoded, rfl⟩, fun s => rfl,
    resetLow_lmode⟩
  obtain ⟨t, eq, -⟩ := exec_effect defined
  exact ⟨t, eq, (usesLine_of_exec_eq_next eq).lmode⟩

/-- Settles O43: the segment is of `exec_effect`, its time is what the whole trace gains, and the totals are computed. -/
theorem lineTimeOfEveryCommand : Obligations.LineTimeOfEveryCommand := by
  unfold Obligations.LineTimeOfEveryCommand
  refine ⟨fun i s defined pulseFits => ?_, fun s => rfl, fun s w e decoded => ⟨_, runWord_of_error s decoded, rfl⟩,
    rfl, rfl, rfl, rfl, rfl, fun v => rfl, rfl⟩
  obtain ⟨t, eq, effect⟩ := exec_effect defined
  obtain ⟨seg, trace, -⟩ := effect.segment
  have time := (usesLine_of_exec_eq_next eq).time pulseFits
  rw [trace, duration_append] at time
  exact ⟨t, seg, eq, trace, Nat.add_left_cancel time⟩

end Sys2Proof.Machine
end

section
/-! PROOFS. Polling with the line held low (spec/70_reset_and_hazards.md R229): what one poll keeps, and by induction any
number of them. -/

namespace Sys2Proof.Machine

/-- The block holds the line low and a conversion runs. -/
structure ConvertingHeldLow (s : State) : Prop where
  lmode : s.lmode = .low
  conv : s.conv = .converting

/-- The last poll read a 0 and answered false, and the next one will find the same. -/
structure PolledFalse (s : State) : Prop extends ConvertingHeldLow s where
  smp : s.smp = false
  answer : rspOut s = some ⟨.ok, 0⟩

/-- A line held low reads 0 whatever the environment answers, so the conversion goes on running. -/
theorem ConvertingHeldLow.poll {s : State} (held : ConvertingHeldLow s) :
    ∃ t, exec .pollConv s = .next t ∧ PolledFalse t := by
  obtain ⟨low, converting⟩ := held
  refine ⟨pollConverting s, execPollConv_of_converting converting, ?_⟩
  rw [pollConverting_eq converting, sampleValue_of_low low]
  exact { lmode := low, conv := rfl, smp := rfl, answer := rfl }

theorem ConvertingHeldLow.pollTimes {s : State} (held : ConvertingHeldLow s) (n : Nat) :
    ∃ t, pollTimes (n + 1) s = .next t ∧ PolledFalse t := by
  induction n generalizing s with
  | zero =>
    obtain ⟨t, eq, polled⟩ := held.poll
    exact ⟨t, by rw [Machine.pollTimes, eq]; rfl, polled⟩
  | succ n ih =>
    obtain ⟨t, eq, polled⟩ := held.poll
    obtain ⟨u, rest, polledLast⟩ := ih polled.toConvertingHeldLow
    exact ⟨u, by rw [Machine.pollTimes, eq]; exact rest, polledLast⟩

/-- Settles O46: `PARA_OFF` drives the line low and keeps `CONV`, and then every poll keeps both. -/
theorem pollNeverTrueWhileHeldLow : Obligations.PollNeverTrueWhileHeldLow := by
  unfold Obligations.PollNeverTrueWhileHeldLow
  intro s n converting
  have held : ConvertingHeldLow (respond .ok 0 (line .low s)) := ⟨rfl, converting⟩
  obtain ⟨u, eq, polled⟩ := held.pollTimes n
  exact ⟨_, u, rfl, eq, polled.lmode, polled.conv, polled.smp, polled.answer⟩

end Sys2Proof.Machine
end

section
/-! PROOFS. Reset: the state after it, `rst_n` between commands (spec/70_reset_and_hazards.md R220), and `rst_n` falling
inside a command (R221; notes/assumptions/6.md). -/

namespace Sys2Proof.Machine

/-! ### Where a trace is cut -/

theorem cutTrace_of_wait {events n : Nat} {tr : Trace} (micros : Nat) (next : tr[events]? = some (.wait n)) :
    cutTrace events micros tr = tr.take events ++ [.wait (min n micros)] := by
  obtain ⟨inside, eq⟩ := List.getElem?_eq_some_iff.mp next
  rw [cutTrace, List.drop_eq_getElem_cons inside, eq]

theorem cutTrace_of_not_wait {events : Nat} {tr : Trace} (micros : Nat)
    (noWait : ∀ n, tr[events]? ≠ some (.wait n)) : cutTrace events micros tr = tr.take events := by
  unfold cutTrace
  split
  · next n rest drop =>
    refine absurd ?_ (noWait n)
    rw [← List.head?_drop, drop, List.head?_cons]
  · rfl

/-- A cut later than the last event leaves the trace whole. -/
theorem cutTrace_of_length_le {events : Nat} {tr : Trace} (micros : Nat) (late : tr.length ≤ events) :
    cutTrace events micros tr = tr := by
  have noWait : ∀ n, tr[events]? ≠ some (.wait n) := by simp [List.getElem?_eq_none late]
  rw [cutTrace_of_not_wait micros noWait, List.take_of_length_le late]

@[simp] theorem length_traceW (cfg : Config) (b : Bool) : (traceW cfg b).length = 5 := by
  cases b <;> rfl

/-- A write slot is five events, whichever bit it sends (spec/40_bit_signaling.md R108). -/
theorem length_traceSlots (cfg : Config) {w : Nat} (v : BitVec w) (n i : Nat) :
    (traceSlots cfg v n i).length = 5 * n := by
  induction n generalizing i with
  | zero => rfl
  | succ n ih => rw [traceSlots, List.length_append, length_traceW, ih]; omega

/-! ### The state a cut strikes -/

section
variable {s t : State} {seg : Trace} {events : Nat} (micros : Nat) (trace : t.trace = s.trace ++ seg)
include trace

/-- Inside the segment or right after its last event, only the line and the environment have moved on. -/
theorem cutState_of_le_length (early : events ≤ seg.length) :
    cutState s t events micros =
      { s with
        trace := s.trace ++ cutTrace events micros seg
        env := s.env.drop (samples (cutTrace events micros seg)).length
        draws := t.draws } := by
  rw [cutState, trace, List.drop_left]
  exact if_neg (Nat.not_lt.mpr early)

/-- Later, the command is done. -/
theorem cutState_of_length_lt (late : seg.length < events) : cutState s t events micros = t := by
  rw [cutState, trace, List.drop_left]
  exact if_pos late

end

/-- What `rst_n` finds when it strikes a command that started in `s`, ends in `t` and adds `seg` to the trace. -/
structure StruckAt (s t : State) (seg : Trace) (events micros : Nat) (c : State) : Prop where
  host : c.host = s.host := by rfl
  received : c.received = s.received := by rfl
  pastTraces : c.pastTraces = s.pastTraces := by rfl
  trace : c.trace = s.trace ++ cutTrace events micros seg
  env : c.env = s.env.drop (samples (cutTrace events micros seg)).length
  early : events ≤ seg.length → c.res = s.res ∧ c.thr = s.thr
  late : seg.length < events → c.res = t.res ∧ c.thr = t.thr

/-- Wherever the cut falls; a late one finds the whole segment, whose samples the environment has all answered. -/
theorem cutState_struckAt {i : Instr} {s t : State} {seg : Trace} (ran : exec i s = .next t)
    (trace : t.trace = s.trace ++ seg) (events micros : Nat) :
    StruckAt s t seg events micros (cutState s t events micros) := by
  obtain late | early := Nat.lt_or_ge seg.length events
  · rw [cutState_of_length_lt micros trace late]
    have effect := effect_of_exec_eq_next ran
    obtain ⟨count, env⟩ := takesSamples_of_exec_eq_next ran
    rw [trace, samples_append, List.length_append] at count
    have whole := cutTrace_of_length_le micros late.le
    refine { effect with trace := ?_, env := ?_, early := fun early => by omega, late := fun _ => ⟨rfl, rfl⟩ }
    · rw [whole, trace]
    · rw [whole, env, Nat.add_left_cancel count]
  · rw [cutState_of_le_length micros trace early]
    exact { trace := rfl, env := rfl, early := fun _ => ⟨rfl, rfl⟩, late := fun late => by omega }

/-- A command of a ready block that reset abandons. -/
theorem step_of_presentThenReset {s u : State} {w : CmdWord} {i : Instr} {events micros : Nat} {rest : List HostInput}
    (hhost : s.host = .presentThenReset w events micros :: rest) (ready : cmdReady s = true) (decoded : decode w = .ok i)
    (ran : exec i (accept w { s with host := rest }) = .next u) :
    step s = .next (resetLow (cutState (accept w { s with host := rest }) u events micros)) := by
  have readyNow : cmdReady { s with host := rest } = true := ready
  rw [step_of_host hhost, runInput, presentCut, if_pos readyNow, runWord_of_ok _ decoded, ran]
  rfl

theorem step_of_rst_high {s : State} {rest : List HostInput} (hhost : s.host = .rst true :: rest) :
    step s = .next { s with host := rest, rstN := true } := by
  rw [step_of_host hhost]
  rfl

/-- `rst_n` falls only from high; held low it does nothing more. -/
theorem step_of_rst_low {s : State} {rest : List HostInput} (hhost : s.host = .rst false :: rest)
    (high : s.rstN = true) : step s = .next (resetLow { s with host := rest }) := by
  rw [step_of_host hhost]
  exact congrArg Host.Outcome.next (if_pos high)

/-- `rst_n` going low gives what it then holds. -/
theorem heldInReset_resetLow (s : State) : HeldInReset (resetLow s) := ⟨rfl, rfl, rfl, rfl, rfl, rfl⟩

/-- A released line, no conversion and no device present are the zeros of STATUS (spec/10_state.md R27). -/
theorem statusWord_eq_zero {s : State} (lmode : s.lmode = .rel) (conv : s.conv = .idle) (pres : s.pres = false) :
    statusWord s = 0 := by
  rw [statusWord, lmode, conv, pres]
  decide

/-! ### The obligations -/

/-- Settles O50: the state that reset strikes is `cutState_struckAt`, and reset keeps of it all that the statement names. -/
theorem resetInsideAnyCommand : Obligations.ResetInsideAnyCommand := by
  unfold Obligations.ResetInsideAnyCommand
  intro s w i events micros rest hhost ready decoded defined
  obtain ⟨u, ran, effect⟩ := exec_effect (s := accept w { s with host := rest }) defined
  obtain ⟨seg, trace, -⟩ := effect.segment
  have struck := cutState_struckAt ran trace events micros
  refine ⟨_, u, seg, ran, trace, step_of_presentThenReset hhost ready decoded ran, heldInReset_resetLow _, rfl,
    struck.host, struck.received, ?_, struck.env, fun n => cutTrace_of_wait micros, cutTrace_of_not_wait micros,
    struck.early, struck.late⟩
  rw [resetLow_pastTraces, struck.pastTraces, struck.trace]
  rfl

/-- Settles O49: the cut of `resetInsideAnyCommand` is inside the segment, whose events are counted slot by slot. -/
theorem resetInsideATransmission : Obligations.ResetInsideATransmission := by
  unfold Obligations.ResetInsideATransmission
  intro s w i events micros rest hhost ready decoded transmits
  have defined : Defined i s := by
    obtain ⟨v, rfl, -⟩ | ⟨r, rfl, -⟩ := transmits <;> nofun
  obtain ⟨t, u, seg, ran, trace, stepped, held, -, -, received, -, -, -, -, early, -⟩ :=
    resetInsideAnyCommand s w i events micros rest hhost ready decoded defined
  have inside : events ≤ seg.length := by
    obtain ⟨v, rfl, lt⟩ | ⟨r, rfl, low, high, lt⟩ := transmits
    · cases (execSetAlarm_eq v _).symm.trans ran
      rw [← List.append_cancel_left trace, traceW16, length_traceSlots]
      exact lt.le
    · cases (execSetRes_of_accepted _ ⟨low, high⟩).symm.trans ran
      rw [← List.append_cancel_left trace, traceWB, length_traceSlots]
      exact lt.le
  obtain ⟨res, thr⟩ := early inside
  exact ⟨t, stepped, res, thr, by rw [rspOut, held.seq], received, held.lmode, held.conv, held.trace⟩

/-- Settles O47: `State.construct`, field by field, and the outputs computed from them. -/
theorem resetStateHoldsTheSpecsValues : Obligations.ResetStateHoldsTheSpecsValues := by
  unfold Obligations.ResetStateHoldsTheSpecsValues
  refine ⟨rfl, fun cfg => ?_⟩
  have status : statusWord (State.construct cfg) = 0 := statusWord_eq_zero rfl rfl rfl
  exact ⟨rfl, rfl, rfl, rfl, rfl, rfl, rfl, rfl, rfl, rfl, rfl, status, rfl, rfl⟩

/-- Settles O48: the first input is `resetLow`, since `rst_n` was high; the second only lets the block accept again. -/
theorem resetInput : Obligations.ResetInput := by
  unfold Obligations.ResetInput
  intro s rest hhost high
  have fell : step s = .next (resetLow { s with host := .rst true :: rest }) := step_of_rst_low hhost high
  obtain ⟨lmode, conv, pres, devid, seq, trace⟩ := heldInReset_resetLow { s with host := .rst true :: rest }
  exact ⟨_, _, fell, step_of_rst_high rfl, lmode, rfl, conv, pres, devid, rfl, seq, rfl, trace, rfl, rfl, rfl, rfl, rfl,
    rfl, rfl, rfl⟩

/-- Settles O57: after power-on `rst_n` is high, the store and the trace are empty and the line is released. -/
theorem resetMeetsTheInvariant : Obligations.ResetMeetsTheInvariant := by
  unfold Obligations.ResetMeetsTheInvariant
  exact .of_high rfl rfl rfl nofun rfl

end Sys2Proof.Machine
end
